-- ==== Sys2Proof/Word.lean ====
section
/-! DEFINITION. The two widths of the engine: the 64-bit word and the 8-bit byte (00_scope R5, R6). -/

namespace Sys2Proof

/-- A word: a 64-bit unsigned integer (R6). Stack values, instruction words, immediates, return addresses and the
instruction pointer are all words (R5 `XLEN`, `IPLEN`; log 8). -/
abbrev Word := BitVec 64

/-- A byte of the memory buffer or of the output channel (R20). -/
abbrev Byte := BitVec 8

end Sys2Proof
end

