-- ==== Sys2Proof/Config.lean ====
section
/-! DEFINITION. The implementation parameters of 00_scope R5: what differs from one instance of the engine to another.
Their default values are in `Machine/Defaults.lean`; a state carries them (log 2), so that a statement about every state
is a statement about every value of the parameters. -/

namespace Sys2Proof

/-- The 24 opcodes of the closed instruction set, in the order of the opcode table (R1, R53). -/
inductive Opcode where
  | push | dup | swap
  | add | sub | multu
  | gt | lt | eq | ge | le
  | read8 | read64 | write8 | write64
  | printu | puts
  | call | ret | jp | jpc | jr | jrc
  | halt
deriving DecidableEq, Repr

/-- `OPCODE_MAP` (R5, R53): the opcode value of each of the 24 mnemonics. R5 asks for an injective map; that is
`OpcodeMap.wf` of `WellFormed.lean`. -/
structure OpcodeMap where
  push : Word
  dup : Word
  swap : Word
  add : Word
  sub : Word
  multu : Word
  gt : Word
  lt : Word
  eq : Word
  ge : Word
  le : Word
  read8 : Word
  read64 : Word
  write8 : Word
  write64 : Word
  printu : Word
  puts : Word
  call : Word
  ret : Word
  jp : Word
  jpc : Word
  jr : Word
  jrc : Word
  halt : Word
deriving DecidableEq, Repr

/-- The parameters of one engine (R5), fixed for a run. `XLEN` and `IPLEN` are the type `Word`; the program is a field of
the state of its own (log 1). -/
structure Params where
  /-- `OPCODE_MAP` (decision D1). -/
  opcodes : OpcodeMap
  /-- `MEM_CAPACITY`: the size of the memory buffer in bytes (decision D5). -/
  memCapacity : Nat
  /-- `OSTACK_DEPTH`: the greatest number of values on the operand stack, `none` for unbounded (decision D9). -/
  ostackDepth : Option Nat
  /-- `CSTACK_DEPTH`: the greatest number of return addresses on the call stack, `none` for unbounded (decision D9). -/
  cstackDepth : Option Nat
  /-- `PRINTU_SUFFIX`: the bytes `printu` emits after the digits (decision D14, open). -/
  printuSuffix : List Byte
deriving DecidableEq, Repr

end Sys2Proof
end

