-- ==== Sys2Proof/Syntax.lean ====
section
/-! DEFINITION. The instructions of the evm ISA: one constructor for each row of spec/opcode_table.json (30_encoding R53).
`push` and `dup` carry the immediate word of format OI (R51, R55); the other 22 take every operand from a stack. -/

namespace Sys2Proof

/-- An instruction of the engine. The two immediates are whole 64-bit words; any value is encodable (R55). -/
inductive Instr where
  | push (imm : Word)
  | dup (n : Word)
  | swap
  | add
  | sub
  | multu
  | gt
  | lt
  | eq
  | ge
  | le
  | read8
  | read64
  | write8
  | write64
  | printu
  | puts
  | call
  | ret
  | jp
  | jpc
  | jr
  | jrc
  | halt
deriving DecidableEq, Repr

end Sys2Proof
end

