-- ==== Sys2Proof/Decode.lean ====
section
/-! DEFINITION. Encoding and decoding (30_encoding R50 to R58): the opcode map and its default numbering, the decoder,
and after it the encoder written from the same tables. -/

namespace Sys2Proof

/-- The value `OPCODE_MAP` gives an opcode (R53). -/
def OpcodeMap.value (m : OpcodeMap) : Opcode → Word
  | .push => m.push
  | .dup => m.dup
  | .swap => m.swap
  | .add => m.add
  | .sub => m.sub
  | .multu => m.multu
  | .gt => m.gt
  | .lt => m.lt
  | .eq => m.eq
  | .ge => m.ge
  | .le => m.le
  | .read8 => m.read8
  | .read64 => m.read64
  | .write8 => m.write8
  | .write64 => m.write64
  | .printu => m.printu
  | .puts => m.puts
  | .call => m.call
  | .ret => m.ret
  | .jp => m.jp
  | .jpc => m.jpc
  | .jr => m.jr
  | .jrc => m.jrc
  | .halt => m.halt

/-- The default numbering: the table of R53 (decision D1). -/
def OpcodeMap.dense : OpcodeMap where
  push := 0x00
  dup := 0x01
  swap := 0x02
  add := 0x03
  sub := 0x04
  multu := 0x05
  gt := 0x06
  lt := 0x07
  eq := 0x08
  ge := 0x09
  le := 0x0A
  read8 := 0x0B
  read64 := 0x0C
  write8 := 0x0D
  write64 := 0x0E
  printu := 0x0F
  puts := 0x10
  call := 0x11
  ret := 0x12
  jp := 0x13
  jpc := 0x14
  jr := 0x15
  jrc := 0x16
  halt := 0x17

/-- The 24 opcodes as a list, in the order of R53. -/
def Opcode.all : List Opcode :=
  [.push, .dup, .swap, .add, .sub, .multu, .gt, .lt, .eq, .ge, .le, .read8, .read64, .write8, .write64,
   .printu, .puts, .call, .ret, .jp, .jpc, .jr, .jrc, .halt]

/-- Whether the opcode has format OI, a second word with the immediate: `push` and `dup` only (R51, R52). -/
def Opcode.hasImmediate : Opcode → Bool
  | .push | .dup => true
  | .swap | .add | .sub | .multu | .gt | .lt | .eq | .ge | .le | .read8 | .read64 | .write8 | .write64
  | .printu | .puts | .call | .ret | .jp | .jpc | .jr | .jrc | .halt => false

/-- The instruction of an opcode, given the word that follows it; format O does not look at that word (R51). -/
def Opcode.instr (imm : Word) : Opcode → Instr
  | .push => .push imm
  | .dup => .dup imm
  | .swap => .swap
  | .add => .add
  | .sub => .sub
  | .multu => .multu
  | .gt => .gt
  | .lt => .lt
  | .eq => .eq
  | .ge => .ge
  | .le => .le
  | .read8 => .read8
  | .read64 => .read64
  | .write8 => .write8
  | .write64 => .write64
  | .printu => .printu
  | .puts => .puts
  | .call => .call
  | .ret => .ret
  | .jp => .jp
  | .jpc => .jpc
  | .jr => .jr
  | .jrc => .jrc
  | .halt => .halt

/-- Decoding an opcode word (R54): the whole word is compared with the 24 values; `none` is an illegal word (R56). -/
def decodeOpcode (m : OpcodeMap) (w : Word) : Option Opcode :=
  Opcode.all.find? (fun op => m.value op == w)

/-- Why a sequence of words is not the start of an instruction. -/
inductive DecodeError where
  /-- There is no opcode word: the sequence is empty. -/
  | noOpcodeWord
  /-- The opcode word is no value of `OPCODE_MAP` (R56). -/
  | illegalOpcode (w : Word)
  /-- The opcode is `push` or `dup` and no word follows it (R52). -/
  | noImmediateWord
deriving DecidableEq, Repr

/-- The decoder (R52, R54): the instruction at the front of a sequence of words, and the words after it. The opcode alone
decides the length; the immediate word is taken as it stands and never checked (R55, R56). -/
def decode (m : OpcodeMap) : List Word → Except DecodeError (Instr × List Word)
  | [] => .error .noOpcodeWord
  | w :: ws =>
    match decodeOpcode m w with
    | none => .error (.illegalOpcode w)
    | some op =>
      if op.hasImmediate then
        match ws with
        | [] => .error .noImmediateWord
        | imm :: rest => .ok (op.instr imm, rest)
      else .ok (op.instr 0, ws)

/-- The opcode of an instruction. -/
def Instr.opcode : Instr → Opcode
  | .push _ => .push
  | .dup _ => .dup
  | .swap => .swap
  | .add => .add
  | .sub => .sub
  | .multu => .multu
  | .gt => .gt
  | .lt => .lt
  | .eq => .eq
  | .ge => .ge
  | .le => .le
  | .read8 => .read8
  | .read64 => .read64
  | .write8 => .write8
  | .write64 => .write64
  | .printu => .printu
  | .puts => .puts
  | .call => .call
  | .ret => .ret
  | .jp => .jp
  | .jpc => .jpc
  | .jr => .jr
  | .jrc => .jrc
  | .halt => .halt

/-- The immediate words of an instruction: one for `push` and `dup`, none for the others (R51). -/
def Instr.immediates : Instr → List Word
  | .push imm => [imm]
  | .dup n => [n]
  | .swap | .add | .sub | .multu | .gt | .lt | .eq | .ge | .le | .read8 | .read64 | .write8 | .write64
  | .printu | .puts | .call | .ret | .jp | .jpc | .jr | .jrc | .halt => []

/-- The length of an instruction in words, decided by its opcode alone (R52). -/
def Instr.words (i : Instr) : Nat := if i.opcode.hasImmediate then 2 else 1

/-- The encoder (R51, R67): the opcode word, then the immediate word if the format has one. -/
def encode (m : OpcodeMap) (i : Instr) : List Word := m.value i.opcode :: i.immediates

/-- The two 64-bit words of an instruction numbered as spec/opcode_table.json numbers bits: bit 0 is the least significant
bit of word 0, bits 64 to 127 are word 1; the bits at and above `nbits` are 0. The stream has no byte layout (R50), so the
words are given to the decoder as words (log 15). -/
def tableWords (nbits w : Nat) : List Word :=
  [BitVec.ofNat 64 (w % 2 ^ nbits), BitVec.ofNat 64 (w % 2 ^ nbits / 2 ^ 64)]

/-- What the decoder reads, under the default opcode map, from the instruction whose bits are `w`. -/
def decodeTableWord (nbits w : Nat) : Option Instr :=
  match decode OpcodeMap.dense (tableWords nbits w) with
  | .ok (i, _) => some i
  | .error _ => none

end Sys2Proof
end

