-- ==== Sys2Proof/Machine/Defaults.lean ====
section
/-! DEFINITION. The default values of the parameters (00_scope R5; log 3). -/

namespace Sys2Proof

/-- The defaults of R5: the dense opcode numbering (D1), 65536 bytes of memory (D5), unbounded stacks (D9), nothing after
the digits of `printu` (D14). -/
def Params.standard : Params where
  opcodes := OpcodeMap.dense
  memCapacity := 65536
  ostackDepth := none
  cstackDepth := none
  printuSuffix := []

end Sys2Proof
end

