-- ==== Sys2Proof/Machine/State.lean ====
section
/-! DEFINITION. The state of the engine (10_state R10), its value after reset (R24, R190), and the reasons a step could
stop. State holds exactly what R10 lists, and beside it the two things R10 calls parameters of the run: the program and
the parameters of R5 (logs 1, 2). -/

namespace Sys2Proof.Machine

/-- `status`, a 2-bit register (R17): the code 3 is never taken, so it is no constructor. -/
inductive Status where
  /-- The engine may take a step. -/
  | running
  /-- A `halt` was executed. -/
  | halted
  /-- A fatal condition occurred. -/
  | faulted
deriving DecidableEq, Repr

/-- The seven causes of a fault (60_exceptions R161). -/
inductive Cause where
  | fetchOob
  | illegalOpcode
  | ostackUnderflow
  | cstackUnderflow
  | memOob
  | ostackOverflow
  | cstackOverflow
deriving DecidableEq, Repr

/-- The memory buffer: the bytes that are not 0, by rising address (log 7). -/
abbrev Memory := List Host.Cell

/-- The state of one engine. -/
structure State where
  /-- The parameters of the run (R5): no state of the spec's, and changed by no step (R201 item 1). -/
  params : Params
  /-- The program `P` of the run; `LEN` is its length (R5, R10): changed by no step (R201 item 1). -/
  prog : List Word
  /-- `ip`, the instruction pointer: a word index into `prog` (R15). -/
  ip : Word
  /-- `S`, the operand stack, TOP FIRST; the spec writes stacks bottom to top (R7, R12; log 6). -/
  ostack : List Word
  /-- `C`, the call stack, TOP FIRST (R14; log 6). -/
  cstack : List Word
  /-- `M`, the memory buffer (R20, R30). -/
  mem : Memory
  /-- `status`, the run state (R17). -/
  status : Status
  /-- `cause`, 3 bits: the code of the fault, 0 before any (R18, R161). -/
  cause : BitVec 3
  /-- `fault_pc`: the address of the opcode word of the instruction that faulted (R18). -/
  faultPc : Word
  /-- `fault_info`: the value the cause table names (R18, R161). -/
  faultInfo : Word
  /-- `out`, the output channel: the bytes emitted since reset, the first one first (R21). -/
  out : List Byte
deriving DecidableEq, Repr

/-- Reasons to stop with the interface's `fault`: none. Every fault of the spec has an entry the spec describes (R169), so
it is taken as a next state, and no step stops this way (log 4; safe, since nothing the spec gives is cut off). -/
inductive Fault : Type where
deriving DecidableEq, Repr

/-- Reasons to refuse. -/
inductive Refusal where
  /-- Raised by an arm of `exec` for an instruction without a meaning; no arm does (safe: the machine stops). -/
  | notModelled (mnemonic : String)
deriving DecidableEq, Repr

/-- Reset, the source's `initialize(program)` (R190): every piece of state at the value of R24. -/
def State.init (p : Params) (prog : List Word) : State where
  params := p
  prog := prog
  ip := 0
  ostack := []
  cstack := []
  mem := []
  status := .running
  cause := 0
  faultPc := 0
  faultInfo := 0
  out := []

/-- The machine right after reset, at the default parameters (log 3) and with the empty program, which R190 admits
(log 1). -/
def State.reset : State := State.init Params.standard []

end Sys2Proof.Machine
end

