-- ==== Sys2Proof/Machine/Memory.lean ====
section
/-! DEFINITION. The memory buffer as a list of its non-zero bytes in one canonical form (20_memory R30; log 7), and the
little-endian conversions between words and bytes (R31, R32, R34). -/

namespace Sys2Proof.Machine

/-- What an address reads as that no entry lists: 0x00, the reset contents of every byte (R24, R30). -/
def Memory.blankByte : Byte := 0

/-- The byte at an address. -/
def Memory.readByte : Memory → Nat → Byte
  | [], _ => Memory.blankByte
  | (a, b) :: m, x => if a = x then b else Memory.readByte m x

/-- The memory with one byte changed. A byte equal to the blank one is not listed, so that equal contents are equal
lists. -/
def Memory.writeByte : Memory → Nat → Byte → Memory
  | [], x, v => if v = Memory.blankByte then [] else [(x, v)]
  | (a, b) :: m, x, v =>
    if x < a then (if v = Memory.blankByte then (a, b) :: m else (x, v) :: (a, b) :: m)
    else if x = a then (if v = Memory.blankByte then m else (x, v) :: m)
    else (a, b) :: Memory.writeByte m x v

/-- The `n` bytes from `addr` on, in ascending address order. -/
def Memory.readBytes (m : Memory) (addr n : Nat) : List Byte :=
  (List.range n).map (fun k => m.readByte (addr + k))

/-- The memory with the bytes `bs` stored from `addr` on, in ascending address order. -/
def Memory.writeBytes : Memory → Nat → List Byte → Memory
  | m, _, [] => m
  | m, addr, b :: bs => Memory.writeBytes (m.writeByte addr b) (addr + 1) bs

/-- The canonical form: addresses strictly rising and no entry equal to what an unlisted address reads as. -/
def Memory.wf : Memory → Bool
  | [] => true
  | (a, b) :: m => decide (b ≠ Memory.blankByte) && m.all (fun c => decide (a < c.1)) && Memory.wf m

/-- Every listed address lies inside a buffer of `capacity` bytes (R30). -/
def Memory.within (m : Memory) (capacity : Nat) : Bool := m.all (fun c => decide (c.1 < capacity))

/-- The unsigned integer of a run of bytes, the byte at the lowest address least significant (R31, decision D6):
the sum over `k` of `b_k * 2^(8k)`. -/
def leValue : List Byte → Nat
  | [] => 0
  | b :: bs => b.toNat + 256 * leValue bs

/-- The low `8n` bits of a word as `n` bytes, the least significant first: byte `k` is `v[8k+7 : 8k]` (R32,
decision D6). -/
def leBytes (v : Word) (n : Nat) : List Byte :=
  (List.range n).map (fun k => v.extractLsb' (8 * k) 8)

end Sys2Proof.Machine
end

