-- ==== Sys2Proof/Machine/Ops.lean ====
section
/-! DEFINITION. The pseudocode primitives of 00_scope R8, each from the rule R8 names for it, and the taking of a fault
(60_exceptions R169). A primitive answers what it yields or the fault it raises. -/

namespace Sys2Proof.Machine

/-- The code of a run state (R17). -/
def Status.code : Status → BitVec 2
  | .running => 0
  | .halted => 1
  | .faulted => 2

/-- The code of a cause (R161). -/
def Cause.code : Cause → BitVec 3
  | .fetchOob => 1
  | .illegalOpcode => 2
  | .ostackUnderflow => 3
  | .cstackUnderflow => 4
  | .memOob => 5
  | .ostackOverflow => 6
  | .cstackOverflow => 7

/-- `raise X(info)` (R8, R169): a cause and the value `fault_info` takes. -/
structure Raise where
  cause : Cause
  info : Word
deriving DecidableEq, Repr

/-! Updates of the state, one register each. -/

/-- `ip <- t` (R8, R15). -/
def State.setIp (s : State) (t : Word) : State := { s with ip := t }

/-- The state with another operand stack, top first. -/
def State.setOstack (s : State) (st : List Word) : State := { s with ostack := st }

/-- The state with another call stack, top first. -/
def State.setCstack (s : State) (st : List Word) : State := { s with cstack := st }

/-- The state with other memory contents. -/
def State.setMem (s : State) (m : Memory) : State := { s with mem := m }

/-- `Emit(bs)`: append the byte string to the output channel (R21). -/
def State.emit (s : State) (bs : List Byte) : State := { s with out := s.out ++ bs }

/-- `Halt()`: enter the halted status and do nothing else (R150). -/
def State.halt (s : State) : State := { s with status := .halted }

/-- Move `ip` past `n` fetched words (R15, R40). -/
def State.advance (s : State) (n : Nat) : State := s.setIp (s.ip + BitVec.ofNat 64 n)

/-- Taking a fault (R169): from the state BEFORE the step's opcode fetch, so every change the step made is undone, only
the fault record and the status change. -/
def takeFault (s : State) (r : Raise) : State :=
  { s with cause := r.cause.code, faultPc := s.ip, faultInfo := r.info, status := .faulted }

/-- There is no return from a fault (R171); the one way to use the engine again is a new initialisation (R199), which
discards all state; that it keeps the engine's parameters is the model's choice (log 18). -/
def State.reinit (s : State) (prog : List Word) : State := State.init s.params prog

/-- How an instruction ends, from the state before its step: its own next state, or the fault it raised, taken. -/
def finish (s : State) (r : Except Raise State) : Host.Outcome State Fault Refusal :=
  match r with
  | .ok s' => .next s'
  | .error e => .next (takeFault s e)

/-! The operand stack (R13). -/

/-- `Pop()`. -/
def pop (s : State) : Except Raise (Word × State) :=
  match s.ostack with
  | [] => .error ⟨.ostackUnderflow, 0⟩
  | v :: rest => .ok (v, s.setOstack rest)

/-- `Push(v)`: raises only when `OSTACK_DEPTH` is finite and reached. -/
def push (v : Word) (s : State) : Except Raise State :=
  if s.params.ostackDepth = some s.ostack.length then .error ⟨.ostackOverflow, 0⟩
  else .ok (s.setOstack (v :: s.ostack))

/-- `Peek(n)`: the value `n` places below the top, `n` a whole unsigned word; a failed peek is an underflow
(decision D26). -/
def peek (n : Word) (s : State) : Except Raise Word :=
  match s.ostack[n.toNat]? with
  | none => .error ⟨.ostackUnderflow, 0⟩
  | some v => .ok v

/-! The call stack (R14). -/

/-- `CPop()`. -/
def cpop (s : State) : Except Raise (Word × State) :=
  match s.cstack with
  | [] => .error ⟨.cstackUnderflow, 0⟩
  | v :: rest => .ok (v, s.setCstack rest)

/-- `CPush(v)`: raises only when `CSTACK_DEPTH` is finite and reached. -/
def cpush (v : Word) (s : State) : Except Raise State :=
  if s.params.cstackDepth = some s.cstack.length then .error ⟨.cstackOverflow, 0⟩
  else .ok (s.setCstack (v :: s.cstack))

/-- `osp = |S|`, the pointer register of a hardware realisation of the operand stack (R12). -/
def State.osp (s : State) : Nat := s.ostack.length

/-- `csp = |C|`, the same for the call stack (R14). -/
def State.csp (s : State) : Nat := s.cstack.length

/-! The memory controller (20_memory). -/

/-- The bounds rule (R33): `addr + n <= MEM_CAPACITY`, the sum in unbounded integers (decision D8). -/
def inBounds (s : State) (addr : Word) (n : Nat) : Bool := decide (addr.toNat + n ≤ s.params.memCapacity)

/-- `MemRead(addr, n)` for `n` in {1, 8} (R31): the bytes as an unsigned integer, zero-extended to a word
(decision D7). -/
def memRead (addr : Word) (n : Nat) (s : State) : Except Raise Word :=
  if inBounds s addr n then .ok (BitVec.ofNat 64 (leValue (s.mem.readBytes addr.toNat n)))
  else .error ⟨.memOob, addr⟩

/-- `MemWrite(addr, n, v)` for `n` in {1, 8} (R32): the test comes before any byte is written. -/
def memWrite (addr : Word) (n : Nat) (v : Word) (s : State) : Except Raise State :=
  if inBounds s addr n then .ok (s.setMem (s.mem.writeBytes addr.toNat (leBytes v n)))
  else .error ⟨.memOob, addr⟩

/-- `MemBytes(addr, n)` for any word `n` (R47); an empty run at `addr = MEM_CAPACITY` is admitted (decision D15). -/
def memBytes (addr n : Word) (s : State) : Except Raise (List Byte) :=
  if inBounds s addr n.toNat then .ok (s.mem.readBytes addr.toNat n.toNat)
  else .error ⟨.memOob, addr⟩

/-! The decimal numeral of `printu` (44_output R120, decision D14). -/

/-- The ASCII byte of a decimal digit: 0x30 to 0x39. -/
def digitByte (d : Nat) : Byte := BitVec.ofNat 8 (0x30 + d)

/-- The decimal digits of `n`, most significant first, `fuel` bounding their number. -/
def decDigits : Nat → Nat → List Byte
  | 0, _ => []
  | fuel + 1, n => if n < 10 then [digitByte n] else decDigits fuel (n / 10) ++ [digitByte (n % 10)]

/-- `Dec(a)`: the minimal decimal numeral of an unsigned word in ASCII. A word has at most 20 digits (R120). -/
def dec (a : Word) : List Byte := decDigits 20 a.toNat

end Sys2Proof.Machine
end

