-- ==== Sys2Proof/Machine/Flags.lean ====
section
/-! DEFINITION. The engine has no flags and no condition codes (10_state R16). What stands in their place is here, whole:
the verdict a comparison pushes, the order in which it takes its operands, and the test of a condition word. -/

namespace Sys2Proof.Machine

/-- The verdict of a comparison: the word 1 for true, the word 0 for false (R16, R100 to R104). -/
def verdict (b : Bool) : Word := if b then 1 else 0

/-- The operands of a comparison, left and right: `a`, popped first, stands on the LEFT (R105). The one definition in
which the doubt of U9 is isolated (log 10). -/
def cmpOperands (a b : Word) : Word × Word := (a, b)

/-- The verdict of an unsigned comparison of the first-popped `a` with the second-popped `b` (R105). -/
def compareWords (rel : Nat → Nat → Bool) (a b : Word) : Word :=
  verdict (rel (cmpOperands a b).1.toNat (cmpOperands a b).2.toNat)

/-- The test of `jpc` and `jrc` (R133, R137 item 7): every non-zero word is true. -/
def condTrue (cond : Word) : Bool := decide (cond ≠ 0)

end Sys2Proof.Machine
end

