-- ==== Sys2Proof/Machine/Operands.lean ====
section
/-! DEFINITION. The operand forms. Operands come from the operand stack, the first-written operand popped first (00_scope
R7), or are the immediate of `push` and `dup`, which the decoder puts into the instruction (30_encoding R55). There is one
addressing mode: the popped word is the byte offset (43_memory_ops). -/

namespace Sys2Proof.Machine

/-- Two stack operands `x, y`: `x` popped first, `y` second (R7). -/
def pop2 (s : State) : Except Raise (Word × Word × State) := do
  let (x, s) ← pop s
  let (y, s) ← pop s
  return (x, y, s)

/-- The form `a, b -> f a b` of the arithmetic and comparison instructions: pop `a`, pop `b`, push one result (R93). -/
def binary (f : Word → Word → Word) (s : State) : Except Raise State := do
  let (a, b, s) ← pop2 s
  push (f a b) s

/-- The form `addr -> value` of the loads of `n` bytes (R110, R111). -/
def load (n : Nat) (s : State) : Except Raise State := do
  let (addr, s) ← pop s
  let v ← memRead addr n s
  push v s

/-- The form `addr, value ->` of the stores of `n` bytes: `addr` is the top (R112 to R114). -/
def store (n : Nat) (s : State) : Except Raise State := do
  let (addr, value, s) ← pop2 s
  memWrite addr n value s

/-- The form `t ->` of an unconditional transfer: pop `t`, then `ip <- target ip t`, where `ip` is the address of the next
instruction (R132, R135). -/
def transfer (target : Word → Word → Word) (s : State) : Except Raise State := do
  let (t, s) ← pop s
  return s.setIp (target s.ip t)

/-- The form `t, cond ->` of a conditional transfer: both are always popped, taken or not (R133, R136). -/
def transferIf (target : Word → Word → Word) (s : State) : Except Raise State := do
  let (t, cond, s) ← pop2 s
  return if condTrue cond then s.setIp (target s.ip t) else s

/-- An absolute target: the popped word is the new `ip` (R137 item 1). -/
def absolute (_ip t : Word) : Word := t

/-- A relative target: the modular sum of the address after the opcode word and the offset (R135, decision D3). -/
def relative (ip t : Word) : Word := ip + t

end Sys2Proof.Machine
end

