-- ==== Sys2Proof/Machine/Arithmetic.lean ====
section
/-! DEFINITION. The meanings of `add`, `sub` and `multu` (41_arithmetic): unsigned, modulo `2^64`, never a fault on
overflow (R93). `a` is popped first, and the result is `b op a`. -/

namespace Sys2Proof.Machine

/-- `add` (R90). -/
def execAdd (s : State) : Host.Outcome State Fault Refusal :=
  finish s (binary (fun a b => b + a) (s.advance 1))

/-- `sub` (R91): second-popped minus first-popped. -/
def execSub (s : State) : Host.Outcome State Fault Refusal :=
  finish s (binary (fun a b => b - a) (s.advance 1))

/-- `multu` (R92): the low 64 bits of the product. -/
def execMultu (s : State) : Host.Outcome State Fault Refusal :=
  finish s (binary (fun a b => b * a) (s.advance 1))

end Sys2Proof.Machine
end

