-- ==== Sys2Proof/Machine/Compare.lean ====
section
/-! DEFINITION. The meanings of the comparisons `gt`, `lt`, `eq`, `ge`, `le` (42_compare): unsigned, the top of the stack
on the left (R105; log 10), one word 0 or 1 pushed. -/

namespace Sys2Proof.Machine

/-- `gt` (R100). -/
def execGt (s : State) : Host.Outcome State Fault Refusal :=
  finish s (binary (compareWords (fun x y => decide (x > y))) (s.advance 1))

/-- `lt` (R101). -/
def execLt (s : State) : Host.Outcome State Fault Refusal :=
  finish s (binary (compareWords (fun x y => decide (x < y))) (s.advance 1))

/-- `eq` (R102). -/
def execEq (s : State) : Host.Outcome State Fault Refusal :=
  finish s (binary (compareWords (fun x y => decide (x = y))) (s.advance 1))

/-- `ge` (R103). -/
def execGe (s : State) : Host.Outcome State Fault Refusal :=
  finish s (binary (compareWords (fun x y => decide (x ≥ y))) (s.advance 1))

/-- `le` (R104). -/
def execLe (s : State) : Host.Outcome State Fault Refusal :=
  finish s (binary (compareWords (fun x y => decide (x ≤ y))) (s.advance 1))

end Sys2Proof.Machine
end

