-- ==== Sys2Proof/Machine/Control.lean ====
section
/-! DEFINITION. The meanings of `call`, `ret`, `jp`, `jpc`, `jr`, `jrc` (45_control). None checks its target: the next fetch
does (R137 item 2, decision D13). -/

namespace Sys2Proof.Machine

/-- `call` (R130): the saved address is that of the word after the opcode. -/
def execCall (s : State) : Host.Outcome State Fault Refusal :=
  finish s (do
    let (addr, s) ← pop (s.advance 1)
    let s ← cpush s.ip s
    return s.setIp addr)

/-- `ret` (R131). -/
def execRet (s : State) : Host.Outcome State Fault Refusal :=
  finish s (do
    let (v, s) ← cpop (s.advance 1)
    return s.setIp v)

/-- `jp` (R132): pops one value and never a condition (C4). -/
def execJp (s : State) : Host.Outcome State Fault Refusal := finish s (transfer absolute (s.advance 1))

/-- `jpc` (R133, R134): the address is the top, the condition below it. -/
def execJpc (s : State) : Host.Outcome State Fault Refusal := finish s (transferIf absolute (s.advance 1))

/-- `jr` (R135): relative to the address after the opcode word, modulo `2^64`. -/
def execJr (s : State) : Host.Outcome State Fault Refusal := finish s (transfer relative (s.advance 1))

/-- `jrc` (R136): the offset is the top, the condition below it. -/
def execJrc (s : State) : Host.Outcome State Fault Refusal := finish s (transferIf relative (s.advance 1))

end Sys2Proof.Machine
end

