-- ==== Sys2Proof/Machine/MemoryOps.lean ====
section
/-! DEFINITION. The meanings of `read8`, `read64`, `write8`, `write64` (43_memory_ops). -/

namespace Sys2Proof.Machine

/-- `read8` (R110): one byte, zero-extended. -/
def execRead8 (s : State) : Host.Outcome State Fault Refusal := finish s (load 1 (s.advance 1))

/-- `read64` (R111): eight bytes, little-endian. -/
def execRead64 (s : State) : Host.Outcome State Fault Refusal := finish s (load 8 (s.advance 1))

/-- `write8` (R112): the low byte of the value. -/
def execWrite8 (s : State) : Host.Outcome State Fault Refusal := finish s (store 1 (s.advance 1))

/-- `write64` (R113): eight bytes, little-endian. -/
def execWrite64 (s : State) : Host.Outcome State Fault Refusal := finish s (store 8 (s.advance 1))

end Sys2Proof.Machine
end

