-- ==== Sys2Proof/Machine/Output.lean ====
section
/-! DEFINITION. The meanings of `printu` and `puts` (44_output). -/

namespace Sys2Proof.Machine

/-- `printu` (R120): the decimal numeral of the popped value, then `PRINTU_SUFFIX`. -/
def execPrintu (s : State) : Host.Outcome State Fault Refusal :=
  finish s (do
    let (a, s) ← pop (s.advance 1)
    return s.emit (dec a ++ s.params.printuSuffix))

/-- `puts` (R121): `size` is the top, `ptr` below it; the whole range is tested before the first byte is emitted. -/
def execPuts (s : State) : Host.Outcome State Fault Refusal :=
  finish s (do
    let (size, ptr, s) ← pop2 (s.advance 1)
    let bs ← memBytes ptr size s
    return s.emit bs)

end Sys2Proof.Machine
end

