-- ==== Sys2Proof/Machine/StackOps.lean ====
section
/-! DEFINITION. The meanings of `push`, `dup` and `swap` (40_stack_ops). A meaning starts from the state BEFORE the opcode
fetch, `ip = k`, and moves `ip` past the instruction's words itself, so that a fault leaves that state (R169). The
immediate has been fetched by the decoder's caller (`fetchInstr`), with the fault R80 and R81 give a missing one. -/

namespace Sys2Proof.Machine

/-- `push imm` (R80). -/
def execPush (imm : Word) (s : State) : Host.Outcome State Fault Refusal :=
  finish s (push imm (s.advance 2))

/-- `dup n` (R81). -/
def execDup (n : Word) (s : State) : Host.Outcome State Fault Refusal :=
  finish s (do
    let s := s.advance 2
    let v ← peek n s
    push v s)

/-- `swap` (R82): the old top goes below, the old second value becomes the top. -/
def execSwap (s : State) : Host.Outcome State Fault Refusal :=
  finish s (do
    let (a, b, s) ← pop2 (s.advance 1)
    let s ← push a s
    push b s)

end Sys2Proof.Machine
end

