-- ==== Sys2Proof/Machine/System.lean ====
section
/-! DEFINITION. The meaning of `halt` (46_system R150), the one system instruction (R151). -/

namespace Sys2Proof.Machine

/-- `halt` (R150): `ip` moves past the opcode word, the status becomes halted, nothing else changes (decision D24). -/
def execHalt (s : State) : Host.Outcome State Fault Refusal := finish s (.ok (s.advance 1).halt)

end Sys2Proof.Machine
end

