-- ==== Sys2Proof/Machine/Dispatch.lean ====
section
/-! DEFINITION. The dispatch on the decoded opcode (70_reset_and_hazards R191): one isolated handler per opcode, with no
fall-through (C4). -/

namespace Sys2Proof.Machine

-- The state is the one before the opcode fetch; each meaning moves ip past its own words.
def exec (i : Instr) (s : State) : Host.Outcome State Fault Refusal :=
  match i with
  | .push imm => Sys2Proof.Machine.execPush imm s
  | .dup n => Sys2Proof.Machine.execDup n s
  | .swap => Sys2Proof.Machine.execSwap s
  | .add => Sys2Proof.Machine.execAdd s
  | .sub => Sys2Proof.Machine.execSub s
  | .multu => Sys2Proof.Machine.execMultu s
  | .gt => Sys2Proof.Machine.execGt s
  | .lt => Sys2Proof.Machine.execLt s
  | .eq => Sys2Proof.Machine.execEq s
  | .ge => Sys2Proof.Machine.execGe s
  | .le => Sys2Proof.Machine.execLe s
  | .read8 => Sys2Proof.Machine.execRead8 s
  | .read64 => Sys2Proof.Machine.execRead64 s
  | .write8 => Sys2Proof.Machine.execWrite8 s
  | .write64 => Sys2Proof.Machine.execWrite64 s
  | .printu => Sys2Proof.Machine.execPrintu s
  | .puts => Sys2Proof.Machine.execPuts s
  | .call => Sys2Proof.Machine.execCall s
  | .ret => Sys2Proof.Machine.execRet s
  | .jp => Sys2Proof.Machine.execJp s
  | .jpc => Sys2Proof.Machine.execJpc s
  | .jr => Sys2Proof.Machine.execJr s
  | .jrc => Sys2Proof.Machine.execJrc s
  | .halt => Sys2Proof.Machine.execHalt s

end Sys2Proof.Machine
end

