-- ==== Sys2Proof/Machine/Fetch.lean ====
section
/-! DEFINITION. The fetch unit and the decoder in front of it (20_memory R40, R41; 30_encoding R52, R54, R58). -/

namespace Sys2Proof.Machine

/-- The word fetch reads at an instruction address (R40): `FETCH_OOB` at or past `LEN`. It does not tell opcode words from
immediate words (R41). The advance of `ip` is made by the meaning, which knows how many words were fetched. -/
def fetchWord (s : State) (a : Word) : Except Raise Word :=
  match s.prog[a.toNat]? with
  | none => .error ⟨.fetchOob, a⟩
  | some w => .ok w

/-- Opcode fetch, decode, and the immediate fetch of `push` and `dup`, in this order (R52, R170 items 1 to 3). -/
def fetchInstr (s : State) : Except Raise Instr := do
  let w ← fetchWord s s.ip
  match decodeOpcode s.params.opcodes w with
  | none => .error ⟨.illegalOpcode, w⟩
  | some op =>
    if op.hasImmediate then do
      let imm ← fetchWord s (s.ip + 1)
      return op.instr imm
    else return op.instr 0

/-- The program with the words `ws` at the address `a`, padded with zero words if it ends before `a`. -/
def placeWords (prog : List Word) (a : Nat) (ws : List Word) : List Word :=
  prog.take a ++ List.replicate (a - prog.length) 0 ++ ws ++ prog.drop (a + ws.length)

end Sys2Proof.Machine
end

