-- ==== Sys2Proof/Machine/Step.lean ====
section
/-! DEFINITION. One step of the engine (70_reset_and_hazards R191), and where the host puts an instruction for the next
step to run (logs 1, 15). -/

namespace Sys2Proof.Machine

/-- The step rule (R191): fetch, decode, execute; a raise anywhere takes the fault. With a status other than running the
engine does nothing: the identity, which R191 recommends (log 5). -/
def step (s : State) : Host.Outcome State Fault Refusal :=
  match s.status with
  | .halted => .next s
  | .faulted => .next s
  | .running =>
    match fetchInstr s with
    | .error e => .next (takeFault s e)
    | .ok i => exec i s

/-- The instruction whose bits are `w` placed where the next step fetches: at `ip` in the program, the engine running. -/
def State.withFetchWord (s : State) (nbits w : Nat) : State :=
  { s with prog := placeWords s.prog s.ip.toNat (tableWords nbits w), status := .running }

end Sys2Proof.Machine
end

