-- ==== Sys2Proof/Machine/Tokenizer.lean ====
section
/-! DEFINITION. The assembler's source text (30_encoding R61 to R65, R75), line by line to located statements. The assembler
is software around the engine, outside the block (00_scope R4, 30_encoding R60): no step uses this file. Text is a list of
characters. Log 14 names what the spec leaves open here. -/

namespace Sys2Proof.Machine

/-- A statement of the source text (R61, R63). -/
inductive Stmt where
  /-- `name:` (R62). -/
  | label (name : List Char)
  /-- One of the 18 mnemonics without an operand in the text (R63). -/
  | plain (op : Opcode)
  /-- `push n`, `dup n`, `jr n`, `jrc n` (R63). -/
  | numeric (op : Opcode) (n : Word)
  /-- `jp L`, `jpc L` (R63, R65). -/
  | ref (op : Opcode) (name : List Char)
deriving DecidableEq, Repr

/-- The classes of assembler errors (R72). None is a hardware fault (R175). -/
inductive AsmErrorKind where
  /-- The first word is no mnemonic (R63). -/
  | unknownOpcode
  /-- A required operand is missing or is not a numeral (R63, R64). -/
  | badOperand
  /-- A label definition with nothing before the colon (R62). -/
  | emptyLabel
  /-- Something other than a comment after the statement (R62, R63). -/
  | unexpectedSymbol
  /-- A label is defined twice (R70). -/
  | duplicateLabel
  /-- A reference to a label that is defined nowhere (R71). -/
  | undefinedLabel
deriving DecidableEq, Repr

/-- A position in the source text: row and column, both from 1 (R61, R63; the column's origin is log 14). -/
structure SrcPos where
  row : Nat
  col : Nat
deriving DecidableEq, Repr

/-- An assembler error and the position it is reported at (R63, R71). -/
structure AsmError where
  kind : AsmErrorKind
  pos : SrcPos
deriving DecidableEq, Repr

/-- A statement and the positions of its first word and of its operand, where it has one. -/
structure Located where
  stmt : Stmt
  pos : SrcPos
  operandPos : SrcPos
deriving DecidableEq, Repr

/-- White space inside a line: blank, tab, vertical tab, form feed, carriage return (log 14). -/
def isBlank (c : Char) : Bool := c = ' ' || c = '\t' || c.toNat = 11 || c.toNat = 12 || c = '\r'

/-- The lines of a text (R61). -/
def splitLines : List Char → List (List Char)
  | [] => [[]]
  | c :: cs =>
    if c = '\n' then [] :: splitLines cs
    else match splitLines cs with
      | [] => [[c]]
      | l :: ls => (c :: l) :: ls

/-- The text after leading white space. -/
def skipBlank (cs : List Char) : List Char := cs.dropWhile isBlank

/-- The whitespace-delimited word at the front of a text. -/
def firstWord (cs : List Char) : List Char := cs.takeWhile (fun c => !isBlank c)

/-- The text after that word. -/
def afterWord (cs : List Char) : List Char := cs.dropWhile (fun c => !isBlank c)

/-- Nothing is left of a line, or a comment (R61, R63). -/
def isRest (cs : List Char) : Bool :=
  match skipBlank cs with
  | [] => true
  | c :: _ => c = ';'

/-- The mnemonics, in lower case exactly as R53 spells them (decision D23). -/
def mnemonicOf : Opcode → List Char
  | .push => ['p', 'u', 's', 'h']
  | .dup => ['d', 'u', 'p']
  | .swap => ['s', 'w', 'a', 'p']
  | .add => ['a', 'd', 'd']
  | .sub => ['s', 'u', 'b']
  | .multu => ['m', 'u', 'l', 't', 'u']
  | .gt => ['g', 't']
  | .lt => ['l', 't']
  | .eq => ['e', 'q']
  | .ge => ['g', 'e']
  | .le => ['l', 'e']
  | .read8 => ['r', 'e', 'a', 'd', '8']
  | .read64 => ['r', 'e', 'a', 'd', '6', '4']
  | .write8 => ['w', 'r', 'i', 't', 'e', '8']
  | .write64 => ['w', 'r', 'i', 't', 'e', '6', '4']
  | .printu => ['p', 'r', 'i', 'n', 't', 'u']
  | .puts => ['p', 'u', 't', 's']
  | .call => ['c', 'a', 'l', 'l']
  | .ret => ['r', 'e', 't']
  | .jp => ['j', 'p']
  | .jpc => ['j', 'p', 'c']
  | .jr => ['j', 'r']
  | .jrc => ['j', 'r', 'c']
  | .halt => ['h', 'a', 'l', 't']

/-- The opcode a word of the text names, if it is a mnemonic (R63). -/
def opcodeNamed (w : List Char) : Option Opcode := Opcode.all.find? (fun op => decide (mnemonicOf op = w))

/-- The value of a digit character in a base up to 16, hexadecimal digits in either case (R64, decision D22). -/
def digitValue (base : Nat) (c : Char) : Option Nat :=
  let v := c.toNat
  let d := if 48 ≤ v ∧ v ≤ 57 then v - 48 else if 97 ≤ v ∧ v ≤ 102 then v - 87
    else if 65 ≤ v ∧ v ≤ 70 then v - 55 else 16
  if d < base then some d else none

/-- The value of a run of digits after the value `acc` of those before it. -/
def digitsValue (base : Nat) : Nat → List Char → Option Nat
  | acc, [] => some acc
  | acc, c :: cs =>
    match digitValue base c with
    | none => none
    | some d => digitsValue base (acc * base + d) cs

/-- The magnitude of a numeral without its sign (R64): `0x` or `0X` and hexadecimal digits, a leading `0` and octal digits,
or decimal digits; no digits at all is no numeral. -/
def magnitude : List Char → Option Nat
  | [] => none
  | '0' :: 'x' :: c :: cs => digitsValue 16 0 (c :: cs)
  | '0' :: 'X' :: c :: cs => digitsValue 16 0 (c :: cs)
  | '0' :: cs => digitsValue 8 0 cs
  | c :: cs => digitsValue 10 0 (c :: cs)

/-- A magnitude of `2^64` or more is an error, not a value (R64, decision D22). -/
def boundedWord (negative : Bool) (n : Nat) : Option Word :=
  if n < 2 ^ 64 then some (if negative then -BitVec.ofNat 64 n else BitVec.ofNat 64 n) else none

/-- The numeric operand a token stands for (R64): an optional `-` and a magnitude, reduced modulo `2^64`. -/
def numeral : List Char → Option Word
  | '-' :: cs => (magnitude cs).bind (boundedWord true)
  | cs => (magnitude cs).bind (boundedWord false)

/-- A label definition: the word without its trailing colon, if it has one (R62). -/
def labelOf (w : List Char) : Option (List Char) :=
  match w.getLast? with
  | some ':' => some w.dropLast
  | _ => none

/-- The operand token at the front of the rest of a line; none if the line is over or a comment begins there (log 14). -/
def operandToken (cs : List Char) : Option (List Char) :=
  if isRest cs then none else some (firstWord (skipBlank cs))

/-- One statement (R61 to R65). `line` is the whole line, from which columns are counted, and `cs` what is left of it from
its first word on. -/
def statement (row : Nat) (line cs : List Char) : Except AsmError Located :=
  let posAt (rest : List Char) : SrcPos := ⟨row, line.length - rest.length + 1⟩
  let word := firstWord cs
  let rest := afterWord cs
  let operandAt := posAt (skipBlank rest)
  let closed (after : List Char) (st : Stmt) : Except AsmError Located :=
    if isRest after then .ok ⟨st, posAt cs, operandAt⟩
    else .error ⟨.unexpectedSymbol, posAt (skipBlank after)⟩
  match labelOf word with
  | some name => if name = [] then .error ⟨.emptyLabel, posAt cs⟩ else closed rest (.label name)
  | none =>
    match opcodeNamed word with
    | none => .error ⟨.unknownOpcode, posAt cs⟩
    | some op =>
      match op with
      | .push | .dup | .jr | .jrc =>
        match (operandToken rest).bind numeral with
        | none => .error ⟨.badOperand, operandAt⟩
        | some n => closed (afterWord (skipBlank rest)) (.numeric op n)
      | .jp | .jpc =>
        match operandToken rest with
        | none => .error ⟨.badOperand, operandAt⟩
        | some name => closed (afterWord (skipBlank rest)) (.ref op name)
      | .swap | .add | .sub | .multu | .gt | .lt | .eq | .ge | .le | .read8 | .read64 | .write8 | .write64
      | .printu | .puts | .call | .ret | .halt => closed rest (.plain op)

/-- The statements of the lines from a row on; blank lines and comment lines are skipped (R61). The first error ends it
(R72). -/
def tokenizeLines : Nat → List (List Char) → Except AsmError (List Located)
  | _, [] => .ok []
  | row, line :: lines =>
    if isRest line then tokenizeLines (row + 1) lines
    else do
      let st ← statement row line (skipBlank line)
      let sts ← tokenizeLines (row + 1) lines
      return st :: sts

/-- The tokenizer (R61): rows are numbered from 1. -/
def tokenize (text : List Char) : Except AsmError (List Located) := tokenizeLines 1 (splitLines text)

end Sys2Proof.Machine
end

