-- ==== Sys2Proof/Machine/Assembler.lean ====
section
/-! DEFINITION. The assembler's emission and label resolution (30_encoding R57, R66 to R74): two passes from statements to
the program. Outside the block like the tokenizer (R4, R60): no step uses this file. -/

namespace Sys2Proof.Machine

/-- The placeholder sentinel (R57, decision D28). -/
def placeholder : Word := BitVec.allOnes 64

/-- An unresolved reference: the address of the placeholder word, the label's name, the place in the text (R71). -/
structure LabelRef where
  addr : Nat
  name : List Char
  pos : SrcPos
deriving DecidableEq, Repr

/-- What the first pass builds (R66, R70, R71): the words so far, the label table, the references. -/
structure Emission where
  words : List Word
  labels : List (List Char × Nat)
  refs : List LabelRef
deriving DecidableEq, Repr

/-- The words a statement appends, with the placeholder for a label's address (R67, R68, R70). The four statements with an
operand whose machine instruction takes it from the stack expand to a `push` and that instruction, with no `swap` (R68). -/
def stmtWords (m : OpcodeMap) : Stmt → List Word
  | .label _ => []
  | .plain op => [m.value op]
  | .numeric op n => if op.hasImmediate then [m.value op, n] else [m.push, n, m.value op]
  | .ref op _ => [m.push, placeholder, m.value op]

/-- The address of a label, if the table has one of that name (R70). -/
def labelAddress (labels : List (List Char × Nat)) (name : List Char) : Option Nat := labels.lookup name

/-- One statement of the first pass: its words, and for a label the current length as its address (R66, R70). -/
def emitStmt (m : OpcodeMap) (e : Emission) (l : Located) : Except AsmError Emission :=
  let words := e.words ++ stmtWords m l.stmt
  match l.stmt with
  | .label name =>
    match labelAddress e.labels name with
    | some _ => .error ⟨.duplicateLabel, l.pos⟩
    | none => .ok ⟨words, e.labels ++ [(name, e.words.length)], e.refs⟩
  | .ref _ name => .ok ⟨words, e.labels, e.refs ++ [⟨e.words.length + 1, name, l.operandPos⟩]⟩
  | .plain _ => .ok ⟨words, e.labels, e.refs⟩
  | .numeric _ _ => .ok ⟨words, e.labels, e.refs⟩

/-- The first pass over the statements (R66). -/
def emitAll (m : OpcodeMap) : Emission → List Located → Except AsmError Emission
  | e, [] => .ok e
  | e, l :: ls => do
    let e ← emitStmt m e l
    emitAll m e ls

/-- The second pass (R71): every recorded placeholder is overwritten with its label's address. -/
def resolve (labels : List (List Char × Nat)) : List Word → List LabelRef → Except AsmError (List Word)
  | words, [] => .ok words
  | words, r :: rs =>
    match labelAddress labels r.name with
    | none => .error ⟨.undefinedLabel, r.pos⟩
    | some a => resolve labels (words.set r.addr (BitVec.ofNat 64 a)) rs

/-- The program of a list of statements (R66 to R71). -/
def assembleStmts (m : OpcodeMap) (ls : List Located) : Except AsmError (List Word) := do
  let e ← emitAll m ⟨[], [], []⟩ ls
  resolve e.labels e.words e.refs

/-- The assembler: a function of the source text and of `OPCODE_MAP` (R73). The whole text is tokenized before anything is
emitted, so that a tokenization error on any line is reported in place of a duplicate label on an earlier one: which of the
two is the first error of R72 the spec leaves open, and this order is the model's (DESIGN CHOICE, log 19). -/
def assemble (m : OpcodeMap) (text : List Char) : Except AsmError (List Word) := do
  let ls ← tokenize text
  assembleStmts m ls

/-- The disassembly R76 describes: of each instruction its mnemonic, and for `push` and `dup` the immediate; it ends at the
first word that starts no instruction. `fuel` bounds the number of instructions. -/
def disassemble (m : OpcodeMap) : Nat → List Word → List (List Char × List Word)
  | 0, _ => []
  | fuel + 1, ws =>
    match decode m ws with
    | .error _ => []
    | .ok (i, rest) => (mnemonicOf i.opcode, i.immediates) :: disassemble m fuel rest

end Sys2Proof.Machine
end

