-- ==== Sys2Proof/Machine/Run.lean ====
section
/-! DEFINITION. A run (70_reset_and_hazards R192, R197): the iteration of `step` while the status is running, with a bound
on the number of steps, since nothing bounds the length of a run. -/

namespace Sys2Proof.Machine

/-- At most `n` steps of `run()` (R192): a step is taken only while the status is running. -/
def run : Nat → State → Host.Outcome State Fault Refusal
  | 0, s => .next s
  | n + 1, s =>
    match s.status with
    | .halted => .next s
    | .faulted => .next s
    | .running =>
      match step s with
      | .next s' => run n s'
      | .fault r => .fault r
      | .refused r => .refused r

/-- `run()` ends in `t`: some number of steps leads there and the engine is no longer running (R192). A run that executes
neither `halt` nor a faulting instruction ends nowhere (R197). -/
def RunsTo (s t : State) : Prop := ∃ n, run n s = .next t ∧ t.status ≠ .running

end Sys2Proof.Machine
end

