-- ==== Sys2Proof/Machine/HostPort.lean ====
section
/-! DEFINITION. The host's side of the engine (70_reset_and_hazards R193, R199, R200): what it may ask between runs, and
what it may read. PROG and INIT are `State.init` and `State.reinit`, RUN is `run`, OUT is the field `out`. -/

namespace Sys2Proof.Machine

/-- What the host may ask of an engine that is not running a step (R200). -/
inductive HostRequest where
  /-- `INIT` with `PROG`: reset with a new program (R190, R199). -/
  | init (prog : List Word)
  /-- `RUN`: execute `run()`, here up to a number of steps (R192, R197). -/
  | run (steps : Nat)
deriving DecidableEq, Repr

/-- How the engine serves a request. `INIT` keeps the engine's parameters (log 18). `RUN` is ignored unless the status is
running, which is `run`'s own test (R200). -/
def serve : HostRequest → State → Host.Outcome State Fault Refusal
  | .init prog, s => .next (s.reinit prog)
  | .run steps, s => Sys2Proof.Machine.run steps s

/-- The `STATUS` port (R200): what the host reads of the status and the fault record. -/
structure StatusPort where
  status : BitVec 2
  cause : BitVec 3
  faultPc : Word
  faultInfo : Word
deriving DecidableEq, Repr

/-- The `STATUS` port of a state. -/
def State.statusPort (s : State) : StatusPort := ⟨s.status.code, s.cause, s.faultPc, s.faultInfo⟩

/-- The single result type with a fatal-error variant (R172): the pair of status and fault record, with the output. -/
inductive RunResult where
  /-- The run has not ended. -/
  | unfinished
  /-- `halt`: the run succeeded; `out` is what it emitted. -/
  | success (out : List Byte)
  /-- A fault: the run was aborted; `out` is what the completed instructions emitted. -/
  | fatal (cause : BitVec 3) (faultPc faultInfo : Word) (out : List Byte)
deriving DecidableEq, Repr

/-- What the host sees after a run (R172). -/
def State.result (s : State) : RunResult :=
  match s.status with
  | .running => .unfinished
  | .halted => .success s.out
  | .faulted => .fatal s.cause s.faultPc s.faultInfo s.out

end Sys2Proof.Machine
end

