-- ==== Sys2Proof/WellFormed.lean ====
section
/-! DEFINITION. What the spec asks of the parameters and of the program. An instruction needs no check: the immediate of
`push` and `dup` is exactly a 64-bit word and every word is legal there (30_encoding R55, R56), and no other constructor
carries anything, so every term of `Instr` is a well-formed instruction. -/

namespace Sys2Proof

/-- `OPCODE_MAP` is injective (R5, R53): no two opcodes share a value. -/
def OpcodeMap.wf (m : OpcodeMap) : Bool := decide (Opcode.all.map m.value).Nodup

/-- The parameters are admissible: the opcode map is injective (R5) and `MEM_CAPACITY` is at most `2^64 - 1`
(decision D5). Any stack depth, finite or not, and any suffix are admissible (R5, D9, D14). -/
def Params.wf (p : Params) : Bool := p.opcodes.wf && decide (p.memCapacity < 2 ^ 64)

/-- The program has an admissible length, `0 <= LEN <= 2^64 - 1` (R5, decision D27). Nothing else is asked of a program:
reset rejects none (R190). -/
def programWf (prog : List Word) : Bool := decide (prog.length < 2 ^ 64)

end Sys2Proof
end

