-- ==== Sys2Proof/Safety.lean ====
section
/-! DEFINITION. What claims about the engine are stated in: the invariant of its states, reachability, the fault an
instruction meets first, and what a safe run is. Written from the rules' tables, not from the meanings. -/

namespace Sys2Proof.Machine

/-- A stack of `n` values fits a depth, `none` being unbounded (R5). -/
def fits (depth : Option Nat) (n : Nat) : Bool :=
  match depth with
  | none => true
  | some d => decide (n ≤ d)

/-- Both stacks fit their depths (R5 `OSTACK_DEPTH`, `CSTACK_DEPTH`). -/
def State.stacksFit (s : State) : Bool := fits s.params.ostackDepth s.osp && fits s.params.cstackDepth s.csp

/-- The invariant of a state. -/
structure Inv (s : State) : Prop where
  /-- The parameters are admissible (R5). -/
  params : s.params.wf = true
  /-- The program has an admissible length (R5, D27). -/
  prog : programWf s.prog = true
  /-- The memory list is in its canonical form (log 7). -/
  memCanonical : s.mem.wf = true
  /-- Every listed byte lies inside the memory buffer: the buffer keeps its size (R201 item 4). -/
  memWithin : s.mem.within s.params.memCapacity = true
  /-- Both stacks fit their depths (R5). -/
  stacksFit : s.stacksFit = true
  /-- Every return address is in `1 .. LEN` (R201 item 8). -/
  returns : ∀ c ∈ s.cstack, 1 ≤ c.toNat ∧ c.toNat ≤ s.prog.length
  /-- A faulted engine has a cause of 1 to 7 and `ip = fault_pc` (R161, R169). -/
  record : s.status = .faulted → s.cause ≠ 0 ∧ s.ip = s.faultPc

/-- `t` is reached from `s` by some number of steps. -/
inductive Reaches (s : State) : State → Prop where
  | refl : Reaches s s
  | tail {t u : State} : Reaches s t → step t = .next u → Reaches s u

/-- How many values an instruction needs on the operand stack (R164, R183). -/
def needs : Instr → Nat
  | .push _ | .ret | .halt => 0
  | .dup n => n.toNat + 1
  | .read8 | .read64 | .printu | .call | .jp | .jr => 1
  | .swap | .add | .sub | .multu | .gt | .lt | .eq | .ge | .le | .write8 | .write64 | .puts | .jpc | .jrc => 2

/-- The access of memory an instruction makes, its first byte and its width, given the values from the top of the operand
stack down (R36): the address is the top, but for `puts`, whose address lies below its size. -/
def memoryAccess : Instr → List Word → Option (Word × Nat)
  | .read8, addr :: _ => some (addr, 1)
  | .read64, addr :: _ => some (addr, 8)
  | .write8, addr :: _ => some (addr, 1)
  | .write64, addr :: _ => some (addr, 8)
  | .puts, size :: ptr :: _ => some (ptr, size.toNat)
  | _, _ => none

/-- The address of an access that the bounds rule refuses, if the instruction makes one (R33, R161). -/
def refusedAccess (i : Instr) (s : State) : Option Word :=
  match memoryAccess i s.ostack with
  | some (addr, n) => if addr.toNat + n ≤ s.params.memCapacity then none else some addr
  | none => none

/-- The first fault an instruction meets after its fetch and decode, in the order of R170 items 4 to 6: underflow, the
bounds test, overflow. -/
def firstRaise (i : Instr) (s : State) : Option Raise :=
  if s.osp < needs i then some ⟨.ostackUnderflow, 0⟩
  else if i = .ret ∧ s.csp = 0 then some ⟨.cstackUnderflow, 0⟩
  else
    match refusedAccess i s with
    | some addr => some ⟨.memOob, addr⟩
    | none =>
      if i.opcode.hasImmediate ∧ s.params.ostackDepth = some s.osp then some ⟨.ostackOverflow, 0⟩
      else if i = .call ∧ s.params.cstackDepth = some s.csp then some ⟨.cstackOverflow, 0⟩
      else none

/-- The first fault a step of a running engine meets, in the order of R170 items 1 to 6: opcode fetch, decode, immediate
fetch, and then the instruction's own (`firstRaise`). -/
def stepRaise (s : State) : Option Raise :=
  match s.prog[s.ip.toNat]? with
  | none => some ⟨.fetchOob, s.ip⟩
  | some w =>
    match Opcode.all.find? (fun op => s.params.opcodes.value op == w) with
    | none => some ⟨.illegalOpcode, w⟩
    | some op =>
      match op.hasImmediate, s.prog[s.ip.toNat + 1]? with
      | true, none => some ⟨.fetchOob, s.ip + 1⟩
      | true, some imm => firstRaise (op.instr imm) s
      | false, _ => firstRaise (op.instr 0) s

/-- The row of R183: the causes a step can raise after a successful opcode fetch and decode, in the order tested. -/
def faultRow : Opcode → List Cause
  | .push => [.fetchOob, .ostackOverflow]
  | .dup => [.fetchOob, .ostackUnderflow, .ostackOverflow]
  | .swap | .add | .sub | .multu | .gt | .lt | .eq | .ge | .le => [.ostackUnderflow]
  | .read8 | .read64 => [.ostackUnderflow, .memOob]
  | .write8 | .write64 => [.ostackUnderflow, .memOob]
  | .printu => [.ostackUnderflow]
  | .puts => [.ostackUnderflow, .memOob]
  | .call => [.ostackUnderflow, .cstackOverflow]
  | .ret => [.cstackUnderflow]
  | .jp | .jr => [.ostackUnderflow]
  | .jpc | .jrc => [.ostackUnderflow]
  | .halt => []

/-- The bytes an instruction stores to, first address and width: the address is the top of the operand stack
(R112, R113). Every other instruction stores nothing (R10, R36). -/
def storedBytes (i : Instr) (s : State) : Option (Nat × Nat) :=
  match i, s.ostack with
  | .write8, addr :: _ => some (addr.toNat, 1)
  | .write64, addr :: _ => some (addr.toNat, 8)
  | _, _ => none

/-- A safe run of at most `n` steps: it ends in no fault. -/
def safeRun (n : Nat) (s : State) : Prop := ∀ t, run n s = .next t → t.status ≠ .faulted

end Sys2Proof.Machine
end

