-- ==== Sys2Proof/Certificates/Slice0/Obligations.lean ====
section
/-! DEFINITION. The statements for the provers. A stack is written top first; `takeFault s ⟨c, v⟩` is the entry of the fault
`c` with `fault_info` `v` from the state `s` before the opcode fetch, whose every register `StepTakesTheFirstFault` spells
out. `exec i s` runs `i` with `s.ip` at its opcode word. A statement that mentions `OpcodeMap.dense` says by it what the
default numbering of R53 gives. -/

open Sys2Proof Sys2Proof.Machine

/-- R80. With room on the operand stack, `push` completes with the immediate on top and `ip` past two words; on a full
finite stack it raises; at a step the immediate is the second word, and a missing one raises at its fetch. -/
def Obligations.PushPushesItsImmediate : Prop :=
  ∀ (s : State) (imm : Word),
    (s.params.ostackDepth ≠ some s.ostack.length →
      exec (.push imm) s = .next { s with ip := s.ip + 2, ostack := imm :: s.ostack }) ∧
    (s.params.ostackDepth = some s.ostack.length →
      exec (.push imm) s = .next (takeFault s ⟨.ostackOverflow, 0⟩)) ∧
    (Inv s → s.status = .running → s.prog[s.ip.toNat]? = some s.params.opcodes.push →
      (s.prog[s.ip.toNat + 1]? = some imm → step s = exec (.push imm) s) ∧
      (s.prog.length = s.ip.toNat + 1 → step s = .next (takeFault s ⟨.fetchOob, s.ip + 1⟩))) ∧
    encode OpcodeMap.dense (.push imm) = [0x00, imm]

/-- R81. `dup n` copies the value `n` below the top; the offset is a whole unsigned word, and one not below the depth
raises underflow before overflow is looked at. -/
def Obligations.DupCopiesTheValueBelowTop : Prop :=
  ∀ (s : State) (n : Word),
    (∀ v, s.ostack[n.toNat]? = some v → s.params.ostackDepth ≠ some s.ostack.length →
      exec (.dup n) s = .next { s with ip := s.ip + 2, ostack := v :: s.ostack }) ∧
    (s.ostack.length ≤ n.toNat → exec (.dup n) s = .next (takeFault s ⟨.ostackUnderflow, 0⟩)) ∧
    (n.toNat < s.ostack.length → s.params.ostackDepth = some s.ostack.length →
      exec (.dup n) s = .next (takeFault s ⟨.ostackOverflow, 0⟩)) ∧
    (Inv s → s.status = .running → s.prog[s.ip.toNat]? = some s.params.opcodes.dup →
      (s.prog[s.ip.toNat + 1]? = some n → step s = exec (.dup n) s) ∧
      (s.prog.length = s.ip.toNat + 1 → step s = .next (takeFault s ⟨.fetchOob, s.ip + 1⟩))) ∧
    encode OpcodeMap.dense (.dup n) = [0x01, n]

/-- R82. `swap` exchanges the top two values and completes whenever there are two; with fewer it raises underflow. -/
def Obligations.SwapExchangesTheTopTwo : Prop :=
  (∀ (s : State) (a b : Word) (rest : List Word), s.stacksFit = true → s.ostack = a :: b :: rest →
      exec .swap s = .next { s with ip := s.ip + 1, ostack := b :: a :: rest }) ∧
    (∀ s : State, s.ostack.length < 2 → exec .swap s = .next (takeFault s ⟨.ostackUnderflow, 0⟩)) ∧
    encode OpcodeMap.dense .swap = [0x02]

/-- R90, R91, R92. `add`, `sub`, `multu` complete whenever there are two operands: the top `a` and the value `b` below it
become `b + a`, `b - a`, `b * a` reduced modulo `2^64`, computed here in unbounded integers; with fewer operands each raises
underflow. Nothing else but `ip` changes. The low 64 bits of a product are the same for the signed reading. -/
def Obligations.ArithmeticPushesBOpA : Prop :=
  (∀ (s : State) (a b : Word) (rest : List Word), s.stacksFit = true → s.ostack = a :: b :: rest →
      exec .add s = .next { s with
        ip := s.ip + 1, ostack := BitVec.ofNat 64 ((b.toNat + a.toNat) % 2 ^ 64) :: rest } ∧
      exec .sub s = .next { s with
        ip := s.ip + 1, ostack := BitVec.ofInt 64 (((b.toNat : Int) - a.toNat) % 2 ^ 64) :: rest } ∧
      exec .multu s = .next { s with
        ip := s.ip + 1, ostack := BitVec.ofNat 64 ((b.toNat * a.toNat) % 2 ^ 64) :: rest }) ∧
    (∀ (s : State) (i : Instr), i = .add ∨ i = .sub ∨ i = .multu → s.ostack.length < 2 →
      exec i s = .next (takeFault s ⟨.ostackUnderflow, 0⟩)) ∧
    (∀ a b : Word, BitVec.ofNat 64 ((b.toNat * a.toNat) % 2 ^ 64) = BitVec.ofInt 64 (b.toInt * a.toInt)) ∧
    encode OpcodeMap.dense .add = [0x03] ∧ encode OpcodeMap.dense .sub = [0x04] ∧
    encode OpcodeMap.dense .multu = [0x05]

/-- R100 to R105. The five comparisons complete whenever there are two operands: the word 1 or 0 of the unsigned comparison
with the top on the LEFT replaces them; with fewer operands each raises underflow. Nothing else but `ip` changes. -/
def Obligations.ComparisonsPushTheVerdict : Prop :=
  (∀ (s : State) (a b : Word) (rest : List Word), s.stacksFit = true → s.ostack = a :: b :: rest →
      exec .gt s = .next { s with
        ip := s.ip + 1, ostack := (if a.toNat > b.toNat then 1 else 0) :: rest } ∧
      exec .lt s = .next { s with
        ip := s.ip + 1, ostack := (if a.toNat < b.toNat then 1 else 0) :: rest } ∧
      exec .eq s = .next { s with
        ip := s.ip + 1, ostack := (if a = b then 1 else 0) :: rest } ∧
      exec .ge s = .next { s with
        ip := s.ip + 1, ostack := (if a.toNat ≥ b.toNat then 1 else 0) :: rest } ∧
      exec .le s = .next { s with
        ip := s.ip + 1, ostack := (if a.toNat ≤ b.toNat then 1 else 0) :: rest }) ∧
    (∀ (s : State) (i : Instr), i = .gt ∨ i = .lt ∨ i = .eq ∨ i = .ge ∨ i = .le → s.ostack.length < 2 →
      exec i s = .next (takeFault s ⟨.ostackUnderflow, 0⟩)) ∧
    encode OpcodeMap.dense .gt = [0x06] ∧ encode OpcodeMap.dense .lt = [0x07] ∧
    encode OpcodeMap.dense .eq = [0x08] ∧ encode OpcodeMap.dense .ge = [0x09] ∧
    encode OpcodeMap.dense .le = [0x0A]

/-- R110, R111. A load completes whenever its address is admitted: the byte zero-extended, or the sum of the eight bytes
`M[addr + k] * 2^(8k)`, replaces the address; memory and all else but `ip` are unchanged. With no operand it raises
underflow, with a refused address `MEM_OOB` of that address. -/
def Obligations.LoadsPushTheBytesAtTheAddress : Prop :=
  (∀ (s : State) (addr : Word) (rest : List Word), s.stacksFit = true → s.ostack = addr :: rest →
      (addr.toNat + 1 ≤ s.params.memCapacity →
        exec .read8 s = .next { s with
          ip := s.ip + 1, ostack := (s.mem.readByte addr.toNat).setWidth 64 :: rest }) ∧
      (s.params.memCapacity < addr.toNat + 1 → exec .read8 s = .next (takeFault s ⟨.memOob, addr⟩)) ∧
      (addr.toNat + 8 ≤ s.params.memCapacity →
        exec .read64 s = .next { s with
          ip := s.ip + 1,
          ostack := BitVec.ofNat 64 (∑ k ∈ Finset.range 8, (s.mem.readByte (addr.toNat + k)).toNat * 2 ^ (8 * k)) ::
            rest }) ∧
      (s.params.memCapacity < addr.toNat + 8 → exec .read64 s = .next (takeFault s ⟨.memOob, addr⟩))) ∧
    (∀ s : State, s.ostack = [] →
      exec .read8 s = .next (takeFault s ⟨.ostackUnderflow, 0⟩) ∧
      exec .read64 s = .next (takeFault s ⟨.ostackUnderflow, 0⟩)) ∧
    encode OpcodeMap.dense .read8 = [0x0B] ∧ encode OpcodeMap.dense .read64 = [0x0C]

/-- R112, R113, R114. A store completes whenever its address, the top of the stack, is admitted: both operands go, the low
byte of the value, or byte `k` of it at `addr + k` for `k` from 0 to 7, is stored, every byte outside is as before, and
nothing else but `ip` changes. With fewer than two operands it raises underflow, whatever the address; with a refused
address `MEM_OOB` of that address. -/
def Obligations.StoresWriteTheBytesAtTheAddress : Prop :=
  (∀ (s : State) (addr value : Word) (rest : List Word), s.mem.wf = true → s.ostack = addr :: value :: rest →
      (addr.toNat + 1 ≤ s.params.memCapacity →
        ∃ m : Memory, exec .write8 s = .next { s with ip := s.ip + 1, ostack := rest, mem := m } ∧
          m.readByte addr.toNat = value.extractLsb' 0 8 ∧
          ∀ x, x ≠ addr.toNat → m.readByte x = s.mem.readByte x) ∧
      (addr.toNat + 8 ≤ s.params.memCapacity →
        ∃ m : Memory, exec .write64 s = .next { s with ip := s.ip + 1, ostack := rest, mem := m } ∧
          (∀ k, k < 8 → m.readByte (addr.toNat + k) = value.extractLsb' (8 * k) 8) ∧
          ∀ x, x < addr.toNat ∨ addr.toNat + 8 ≤ x → m.readByte x = s.mem.readByte x)) ∧
    (∀ (s : State) (addr value : Word) (rest : List Word), s.ostack = addr :: value :: rest →
      (s.params.memCapacity < addr.toNat + 1 → exec .write8 s = .next (takeFault s ⟨.memOob, addr⟩)) ∧
      (s.params.memCapacity < addr.toNat + 8 → exec .write64 s = .next (takeFault s ⟨.memOob, addr⟩))) ∧
    (∀ s : State, s.ostack.length < 2 →
      exec .write8 s = .next (takeFault s ⟨.ostackUnderflow, 0⟩) ∧
      exec .write64 s = .next (takeFault s ⟨.ostackUnderflow, 0⟩)) ∧
    encode OpcodeMap.dense .write8 = [0x0D] ∧ encode OpcodeMap.dense .write64 = [0x0E]

/-- R120. `printu` completes whenever there is an operand: the output gains its minimal decimal numeral in ASCII, given
here by `Nat.digits`, and then `PRINTU_SUFFIX`; the operand goes and nothing else but `ip` changes. With none it raises
underflow and emits nothing. -/
def Obligations.PrintuEmitsTheDecimalNumeral : Prop :=
  (∀ (s : State) (a : Word) (rest : List Word), s.ostack = a :: rest →
      exec .printu s = .next { s with
        ip := s.ip + 1, ostack := rest,
        out := s.out ++
          ((if a = 0 then [0x30] else ((Nat.digits 10 a.toNat).reverse.map fun d => BitVec.ofNat 8 (0x30 + d))) ++
            s.params.printuSuffix) }) ∧
    (∀ s : State, s.ostack = [] → exec .printu s = .next (takeFault s ⟨.ostackUnderflow, 0⟩)) ∧
    encode OpcodeMap.dense .printu = [0x0F]

/-- R121, R47. `puts` completes whenever its range is admitted: the output gains the bytes `M[ptr], …, M[ptr+size-1]` in
that order, `size` being the top and `ptr` below it; both go, and nothing else but `ip` changes. A refused range raises
`MEM_OOB` of `ptr`, fewer than two operands underflow, and then nothing is emitted. -/
def Obligations.PutsEmitsTheRunOfBytes : Prop :=
  (∀ (s : State) (size ptr : Word) (rest : List Word), s.ostack = size :: ptr :: rest →
      (ptr.toNat + size.toNat ≤ s.params.memCapacity →
        ∃ bs : List Byte, exec .puts s = .next { s with ip := s.ip + 1, ostack := rest, out := s.out ++ bs } ∧
          bs.length = size.toNat ∧ ∀ k, k < size.toNat → bs[k]? = some (s.mem.readByte (ptr.toNat + k))) ∧
      (s.params.memCapacity < ptr.toNat + size.toNat → exec .puts s = .next (takeFault s ⟨.memOob, ptr⟩))) ∧
    (∀ s : State, s.ostack.length < 2 → exec .puts s = .next (takeFault s ⟨.ostackUnderflow, 0⟩)) ∧
    encode OpcodeMap.dense .puts = [0x10]

/-- R130. `call` completes whenever there is an operand and room on the call stack: the address of the word after the opcode
is saved and the operand, whatever it is, becomes `ip`; a target at or past the end raises only at the next step, with
`fault_pc` the target. -/
def Obligations.CallSavesTheReturnAddress : Prop :=
  (∀ (s : State) (addr : Word) (rest : List Word), s.ostack = addr :: rest →
      (s.params.cstackDepth ≠ some s.cstack.length →
        exec .call s = .next { s with ip := addr, ostack := rest, cstack := (s.ip + 1) :: s.cstack } ∧
        (s.status = .running → s.prog.length ≤ addr.toNat → ∀ t, exec .call s = .next t →
          step t = .next (takeFault t ⟨.fetchOob, addr⟩) ∧ (takeFault t ⟨.fetchOob, addr⟩).faultPc = addr)) ∧
      (s.params.cstackDepth = some s.cstack.length →
        exec .call s = .next (takeFault s ⟨.cstackOverflow, 0⟩))) ∧
    (∀ s : State, s.ostack = [] → exec .call s = .next (takeFault s ⟨.ostackUnderflow, 0⟩)) ∧
    encode OpcodeMap.dense .call = [0x11]

/-- R131. `ret` completes whenever the call stack is not empty: its top becomes `ip`, unchecked, and the operand stack and
all else are untouched; on an empty call stack it raises `CSTACK_UNDERFLOW`. Under the invariant the popped address can be
out of range only by being `LEN`, the address after a `call` that is the last word. -/
def Obligations.RetPopsTheCallStackIntoIp : Prop :=
  (∀ (s : State) (v : Word) (rest : List Word), s.cstack = v :: rest →
      exec .ret s = .next { s with ip := v, cstack := rest }) ∧
    (∀ s : State, s.cstack = [] → exec .ret s = .next (takeFault s ⟨.cstackUnderflow, 0⟩)) ∧
    (∀ (s : State) (v : Word) (rest : List Word), Inv s → s.cstack = v :: rest → s.prog.length ≤ v.toNat →
      v.toNat = s.prog.length) ∧
    encode OpcodeMap.dense .ret = [0x12]

/-- R132, R133. `jp` completes with any operand and `jpc` with any two: the operands go, `ip` is the popped address (for
`jpc` if the word below it is not zero, else the next address), whatever that address is, and nothing else changes. With
too few operands, taken or not, each raises underflow. -/
def Obligations.AbsoluteJumpsSetIp : Prop :=
  (∀ (s : State) (addr : Word) (rest : List Word), s.ostack = addr :: rest →
      exec .jp s = .next { s with ip := addr, ostack := rest }) ∧
    (∀ (s : State) (addr cond : Word) (rest : List Word), s.ostack = addr :: cond :: rest →
      (cond ≠ 0 → exec .jpc s = .next { s with ip := addr, ostack := rest }) ∧
      (cond = 0 → exec .jpc s = .next { s with ip := s.ip + 1, ostack := rest })) ∧
    (∀ s : State, s.ostack = [] → exec .jp s = .next (takeFault s ⟨.ostackUnderflow, 0⟩)) ∧
    (∀ s : State, s.ostack.length < 2 → exec .jpc s = .next (takeFault s ⟨.ostackUnderflow, 0⟩)) ∧
    encode OpcodeMap.dense .jp = [0x13] ∧ encode OpcodeMap.dense .jpc = [0x14]

/-- R135, R136. `jr` completes with any operand and `jrc` with any two: `ip` becomes `k + 1 + offset` modulo `2^64`, `k` the
address of the opcode word (for `jrc` if the word below the offset is not zero, else `k + 1`), and the signed reading of the
offset gives the same `ip`. With too few operands each raises underflow. -/
def Obligations.RelativeJumpsAddToIp : Prop :=
  (∀ (s : State) (offset : Word) (rest : List Word), s.ostack = offset :: rest →
      exec .jr s = .next { s with
        ip := BitVec.ofNat 64 ((s.ip.toNat + 1 + offset.toNat) % 2 ^ 64), ostack := rest }) ∧
    (∀ (s : State) (offset cond : Word) (rest : List Word), s.ostack = offset :: cond :: rest →
      (cond ≠ 0 → exec .jrc s = .next { s with
        ip := BitVec.ofNat 64 ((s.ip.toNat + 1 + offset.toNat) % 2 ^ 64), ostack := rest }) ∧
      (cond = 0 → exec .jrc s = .next { s with
        ip := BitVec.ofNat 64 ((s.ip.toNat + 1) % 2 ^ 64), ostack := rest })) ∧
    (∀ ip offset : Word, BitVec.ofNat 64 ((ip.toNat + 1 + offset.toNat) % 2 ^ 64) =
      BitVec.ofInt 64 ((ip.toNat : Int) + 1 + offset.toInt)) ∧
    (∀ s : State, s.ostack = [] → exec .jr s = .next (takeFault s ⟨.ostackUnderflow, 0⟩)) ∧
    (∀ s : State, s.ostack.length < 2 → exec .jrc s = .next (takeFault s ⟨.ostackUnderflow, 0⟩)) ∧
    encode OpcodeMap.dense .jr = [0x15] ∧ encode OpcodeMap.dense .jrc = [0x16]

/-- R150. `halt` completes in every state: `ip` moves past the opcode word, the status is halted, everything else keeps its
value, and a run takes no further step. -/
def Obligations.HaltEndsTheRun : Prop :=
  ∀ s : State,
    exec .halt s = .next { s with ip := s.ip + 1, status := .halted } ∧
    (∀ t, exec .halt s = .next t → ∀ n, run n t = .next t) ∧
    encode OpcodeMap.dense .halt = [0x17]

/-- A step of a running engine whose words at `ip` decode to an instruction is `exec` of that instruction on the same
state: `step` adds nothing around it. The program has an admissible length, which every run keeps
(`StepKeepsTheInvariant`). -/
def Obligations.StepRunsTheDecodedInstruction : Prop :=
  ∀ (s : State) (i : Instr) (rest : List Word), s.status = .running → programWf s.prog = true →
    decode s.params.opcodes (s.prog.drop s.ip.toNat) = .ok (i, rest) → step s = exec i s

/-- R40, R162, R163. The fetch faults of a step: `ip` at or past `LEN`; the opcode of `push` or `dup` as the last word; an
opcode word that `OPCODE_MAP` does not contain, before any immediate is fetched and any operand is popped. -/
def Obligations.FetchAndDecodeFaults : Prop :=
  (∀ s : State, s.status = .running → s.prog.length ≤ s.ip.toNat →
      step s = .next (takeFault s ⟨.fetchOob, s.ip⟩)) ∧
    (∀ (s : State) (op : Opcode), Inv s → s.status = .running → op = .push ∨ op = .dup →
      s.prog[s.ip.toNat]? = some (s.params.opcodes.value op) → s.prog.length = s.ip.toNat + 1 →
      step s = .next (takeFault s ⟨.fetchOob, s.ip + 1⟩)) ∧
    (∀ (s : State) (w : Word), s.status = .running → s.prog[s.ip.toNat]? = some w →
      (∀ op, s.params.opcodes.value op ≠ w) → step s = .next (takeFault s ⟨.illegalOpcode, w⟩))

/-- R54, R56. Under an injective map a word decodes to an opcode exactly if it is that opcode's value, the whole word
compared; under the default map a word decodes exactly if it is at most 23. -/
def Obligations.DecoderComparesTheWholeWord : Prop :=
  (∀ (m : OpcodeMap) (w : Word) (op : Opcode), m.wf = true → (decodeOpcode m w = some op ↔ m.value op = w)) ∧
    (∀ (m : OpcodeMap) (w : Word), decodeOpcode m w = none ↔ ∀ op, m.value op ≠ w) ∧
    (∀ w : Word, (decodeOpcode OpcodeMap.dense w).isSome = true ↔ w.toNat ≤ 23)

/-- Words written out from the tables of R51 and R53 decode to the instructions they stand for (a sanity statement). -/
def Obligations.TableWordsDecode : Prop :=
  decode OpcodeMap.dense [0x0000000000000000, 0x1122334455667788, 0x17] = .ok (.push 0x1122334455667788, [0x17]) ∧
    decode OpcodeMap.dense [0x0000000000000001, 0x2] = .ok (.dup 2, []) ∧
    decode OpcodeMap.dense [0x0000000000000005] = .ok (.multu, []) ∧
    decode OpcodeMap.dense [0x000000000000000A] = .ok (.le, []) ∧
    decode OpcodeMap.dense [0x000000000000000E] = .ok (.write64, []) ∧
    decode OpcodeMap.dense [0x0000000000000010] = .ok (.puts, []) ∧
    decode OpcodeMap.dense [0x0000000000000016] = .ok (.jrc, []) ∧
    decode OpcodeMap.dense [0x0000000000000017] = .ok (.halt, []) ∧
    decode OpcodeMap.dense [0x0000000100000003] = .error (.illegalOpcode 0x0000000100000003)

/-- Decode and encode agree, under every injective opcode map and for every instruction with every immediate: the decoder
answers an instruction and the rest exactly if the words are the instruction's encoding followed by the rest. -/
def Obligations.DecodeAndEncodeAgree : Prop :=
  ∀ (m : OpcodeMap) (i : Instr) (ws rest : List Word), m.wf = true →
    (decode m ws = .ok (i, rest) ↔ ws = encode m i ++ rest)

/-- R50, R67, R76. A program put together from the encodings of instructions reads back: listed from its first word, it
gives each instruction's mnemonic and immediates, in order and without a remainder, under every injective opcode map. -/
def Obligations.ProgramsReadBack : Prop :=
  ∀ (m : OpcodeMap) (is : List Instr), m.wf = true →
    (disassemble m is.length (is.flatMap (encode m)) = is.map fun i => (mnemonicOf i.opcode, i.immediates)) ∧
    (is.flatMap (encode m)).length = (is.map Instr.words).sum

/-- R169, R170. A step of a running engine takes the FIRST fault met in the order of R170, with the codes of R161, undoing
the whole step: nothing changes but `status` and the fault record, and a run takes no further step. If it meets none, it
does not fault and leaves the fault record. `stepRaise` is R170's order written from the tables of R161 and R183, not from
the meanings. -/
def Obligations.StepTakesTheFirstFault : Prop :=
  (∀ s : State, Inv s → s.status = .running →
    (∀ e, stepRaise s = some e →
      ∃ t, t = { s with cause := e.cause.code, faultPc := s.ip, faultInfo := e.info, status := .faulted } ∧
        step s = .next t ∧ ∀ n, run n t = .next t) ∧
    (stepRaise s = none →
      ∃ t, step s = .next t ∧ t.status ≠ .faulted ∧
        t.cause = s.cause ∧ t.faultPc = s.faultPc ∧ t.faultInfo = s.faultInfo)) ∧
  ([Cause.fetchOob, .illegalOpcode, .ostackUnderflow, .cstackUnderflow, .memOob, .ostackOverflow,
    .cstackOverflow].map Cause.code = [1, 2, 3, 4, 5, 6, 7])

/-- Which fault an instruction meets first, instruction by instruction: `exec` takes exactly the fault `firstRaise` names,
and where it names none the status is as before, or halted after `halt`. -/
def Obligations.ExecTakesTheFirstFault : Prop :=
  ∀ (i : Instr) (s : State), s.stacksFit = true →
    (∀ e, firstRaise i s = some e → exec i s = .next (takeFault s e)) ∧
    (firstRaise i s = none →
      ∃ t, exec i s = .next t ∧ t.status = if i = .halt then .halted else s.status)

/-- R183. After a successful opcode fetch and decode, a step that faults has a cause of its instruction's row. -/
def Obligations.FaultsStayInTheirRow : Prop :=
  ∀ (s t : State) (op : Opcode), Inv s → s.status = .running →
    s.prog[s.ip.toNat]? = some (s.params.opcodes.value op) → step s = .next t → t.status = .faulted →
    ∃ c ∈ faultRow op, t.cause = c.code

/-- R24, R190. Reset sets every piece of state to the value of R24, whatever the parameters and the program, and takes the
program and the parameters it is given. -/
def Obligations.ResetValues : Prop :=
  ∀ (p : Params) (prog : List Word),
    (State.init p prog).ip = 0 ∧ (State.init p prog).ostack = [] ∧ (State.init p prog).cstack = [] ∧
    (∀ x, (State.init p prog).mem.readByte x = 0) ∧ (State.init p prog).out = [] ∧
    (State.init p prog).status = .running ∧ (State.init p prog).cause = 0 ∧ (State.init p prog).faultPc = 0 ∧
    (State.init p prog).faultInfo = 0 ∧ (State.init p prog).prog = prog ∧ (State.init p prog).params = p

/-- The invariant holds after every reset with admissible parameters and an admissible program, and at the model's reset
state (whose default parameters and empty program are the model's choice, logs 1 and 3). -/
def Obligations.InvariantHoldsAtReset : Prop :=
  (∀ (p : Params) (prog : List Word), p.wf = true → programWf prog = true → Inv (State.init p prog)) ∧
    Inv State.reset

/-- Every step keeps the invariant: the memory list canonical (the form is the model's, log 7) and inside the buffer, both
stacks within their depths, every return address in `1 .. LEN`, a faulted engine with a cause and `ip = fault_pc`; hence so
does every reachable state. -/
def Obligations.StepKeepsTheInvariant : Prop :=
  (∀ s t : State, Inv s → step s = .next t → Inv t) ∧
    (∀ s t : State, Inv s → Reaches s t → Inv t)

/-- R201 item 1. The program and the parameters never change during a run. -/
def Obligations.ProgramAndParametersNeverChange : Prop :=
  ∀ s t : State, Reaches s t → t.prog = s.prog ∧ t.params = s.params

/-- R201 item 2. The status moves only from running to halted or to faulted, at most once: an engine that has left running
keeps its status for ever. -/
def Obligations.StatusMovesAtMostOnce : Prop :=
  (∀ s t : State, step s = .next t → t.status ≠ s.status →
      s.status = .running ∧ (t.status = .halted ∨ t.status = .faulted)) ∧
    (∀ s t : State, s.status ≠ .running → Reaches s t → t.status = s.status)

/-- R201 item 3, R122. The output only grows, and a fault undoes none of it: the output of a state is the front of the
output of every later state. -/
def Obligations.OutputOnlyGrows : Prop :=
  ∀ s t : State, Reaches s t → ∃ bs, t.out = s.out ++ bs

/-- R201 item 5. A step changes the depth of the operand stack by one of -2, -1, 0, 1 and that of the call stack by one of
-1, 0, 1. -/
def Obligations.StepChangesDepthsLittle : Prop :=
  ∀ s t : State, step s = .next t →
    ((t.osp : Int) - s.osp ∈ [(-2 : Int), -1, 0, 1]) ∧ ((t.csp : Int) - s.csp ∈ [(-1 : Int), 0, 1])

/-- R10, R11. The frame of every instruction, column by column of the state table: what an instruction that does not fault
leaves as it was. No value below the top two of the operand stack is touched. -/
def Obligations.InstructionsChangeOnlyTheirColumns : Prop :=
  ∀ (i : Instr) (s t : State), s.status ≠ .faulted → exec i s = .next t → t.status ≠ .faulted →
    t.params = s.params ∧ t.prog = s.prog ∧
    t.cause = s.cause ∧ t.faultPc = s.faultPc ∧ t.faultInfo = s.faultInfo ∧
    (i ≠ .halt → t.status = s.status) ∧
    (i ∉ [Instr.call, .ret, .jp, .jpc, .jr, .jrc] → t.ip = s.ip + BitVec.ofNat 64 i.words) ∧
    (i ∉ [Instr.call, .ret] → t.cstack = s.cstack) ∧
    (i ∉ [Instr.write8, .write64] → t.mem = s.mem) ∧
    (i ∉ [Instr.printu, .puts] → t.out = s.out) ∧
    (i ∈ [Instr.ret, .halt] → t.ostack = s.ostack) ∧
    (∃ pushed, t.ostack = pushed ++ s.ostack.drop 2)

/-- R32, R36, R201 item 4. Every byte of memory outside the bytes an instruction stores to reads as before, the address
being the top of the operand stack and the width 1 for `write8`, 8 for `write64`; an instruction that stores nothing, or
that faults, leaves all of memory. -/
def Obligations.StoresTouchOnlyTheirBytes : Prop :=
  ∀ (i : Instr) (s t : State), s.mem.wf = true → exec i s = .next t →
    (∀ x, (∀ a n, storedBytes i s = some (a, n) → x < a ∨ a + n ≤ x) → t.mem.readByte x = s.mem.readByte x) ∧
    (storedBytes i s = none → t.mem = s.mem) ∧
    (s.status ≠ .faulted → t.status = .faulted → t.mem = s.mem)

/-- R33. The bounds rule at the default capacity, at the instructions: `read8` and `write8` admit the addresses 0 to 65535,
`read64` and `write64` 0 to 65528, and every address from `2^63` on is refused although the sum would wrap. -/
def Obligations.BoundsAtTheDefaultCapacity : Prop :=
  ∀ (s : State) (addr value : Word) (rest : List Word), s.params.memCapacity = 65536 → s.stacksFit = true →
    s.status = .running → s.ostack = addr :: value :: rest →
    (∀ i, i = .read8 ∨ i = .write8 →
      (addr.toNat ≤ 65535 → ∃ t, exec i s = .next t ∧ t.status = .running) ∧
      (65535 < addr.toNat → exec i s = .next (takeFault s ⟨.memOob, addr⟩))) ∧
    (∀ i, i = .read64 ∨ i = .write64 →
      (addr.toNat ≤ 65528 → ∃ t, exec i s = .next t ∧ t.status = .running) ∧
      (65528 < addr.toNat → exec i s = .next (takeFault s ⟨.memOob, addr⟩))) ∧
    (∀ i, i = .read8 ∨ i = .write8 ∨ i = .read64 ∨ i = .write64 → 2 ^ 63 ≤ addr.toNat →
      exec i s = .next (takeFault s ⟨.memOob, addr⟩))

/-- R37. Accesses of mixed width see one byte array: after an 8-byte write each of its bytes reads back, and eight 1-byte
writes read back as one word. -/
def Obligations.MixedWidthAccessesAgree : Prop :=
  (∀ (s t : State) (a v : Word), s.params.wf = true → s.mem.wf = true → memWrite a 8 v s = .ok t →
      memRead a 8 t = .ok v ∧
      ∀ k, k < 8 → memRead (a + BitVec.ofNat 64 k) 1 t = .ok ((v.extractLsb' (8 * k) 8).setWidth 64)) ∧
    (∀ (st : Nat → State) (b : Nat → Word) (a : Word), (st 0).params.wf = true → (st 0).mem.wf = true →
      a.toNat + 8 ≤ (st 0).params.memCapacity →
      (∀ k, k < 8 → memWrite (a + BitVec.ofNat 64 k) 1 (b k) (st k) = .ok (st (k + 1))) →
      memRead a 8 (st 8) =
        .ok (BitVec.ofNat 64 (∑ k ∈ Finset.range 8, ((b k).extractLsb' 0 8).toNat * 2 ^ (8 * k))))

/-- Two memories in the canonical form that read alike everywhere are the same data (log 7). -/
def Obligations.CanonicalMemoriesAreEqualData : Prop :=
  ∀ m m' : Memory, m.wf = true → m'.wf = true → (∀ x, m.readByte x = m'.readByte x) → m = m'

/-- R21, R122. No run depends on the bytes already emitted: with other earlier output, a run of any length goes through the
same states but for that output. -/
def Obligations.RunsIgnoreEarlierOutput : Prop :=
  ∀ (n : Nat) (s t : State) (o : List Byte), run n s = .next t →
    run n { s with out := o ++ s.out } = .next { t with out := o ++ t.out }

/-- R18. No instruction reads the fault record: with another record, a step of a running engine does the same, and leaves
that record unless it faults. -/
def Obligations.StepsIgnoreTheFaultRecord : Prop :=
  ∀ (s t : State) (c : BitVec 3) (pc info : Word), s.status = .running → step s = .next t →
    (t.status = .faulted → step { s with cause := c, faultPc := pc, faultInfo := info } = .next t) ∧
    (t.status ≠ .faulted → step { s with cause := c, faultPc := pc, faultInfo := info } =
      .next { t with cause := c, faultPc := pc, faultInfo := info })

/-- R130, R131. A `call` that does not fault and a later `ret` that finds the call stack as the `call` left it resume at the
word after the `call`, with the call stack as it was before. -/
def Obligations.RetResumesAfterTheCall : Prop :=
  ∀ s t u v : State, s.status = .running → exec .call s = .next t → t.status = .running → u.cstack = t.cstack →
    exec .ret u = .next v →
    v = { u with ip := s.ip + 1, cstack := s.cstack }

/-- R137 item 2, R162. A control transfer checks no target. With its operands in place each of the six completes whatever
its target is, and where the target is at or past `LEN` (for `jpc` and `jrc`: and the condition is not zero) the NEXT step
raises `FETCH_OOB` with `fault_pc` and `fault_info` the target, all the transfer did kept. A `jpc` or `jrc` with the
condition zero completes whatever its operand. The last clause says the same of any state a transfer has left running. -/
def Obligations.BadTargetsFaultAtTheNextFetch : Prop :=
  (∀ (s : State) (v : Word) (rest : List Word), s.status = .running → s.ostack = v :: rest →
    (s.prog.length ≤ v.toNat → s.params.cstackDepth ≠ some s.cstack.length →
      ∃ t, t = { s with ip := v, ostack := rest, cstack := (s.ip + 1) :: s.cstack } ∧ exec .call s = .next t ∧
        step t = .next { t with cause := 1, faultPc := v, faultInfo := v, status := .faulted }) ∧
    (s.prog.length ≤ v.toNat →
      ∃ t, t = { s with ip := v, ostack := rest } ∧ exec .jp s = .next t ∧
        step t = .next { t with cause := 1, faultPc := v, faultInfo := v, status := .faulted }) ∧
    (s.prog.length ≤ (s.ip + 1 + v).toNat →
      ∃ t, t = { s with ip := s.ip + 1 + v, ostack := rest } ∧ exec .jr s = .next t ∧
        step t = .next { t with
          cause := 1, faultPc := s.ip + 1 + v, faultInfo := s.ip + 1 + v, status := .faulted })) ∧
  (∀ (s : State) (v cond : Word) (rest : List Word), s.status = .running → s.ostack = v :: cond :: rest →
    (cond ≠ 0 → s.prog.length ≤ v.toNat →
      ∃ t, t = { s with ip := v, ostack := rest } ∧ exec .jpc s = .next t ∧
        step t = .next { t with cause := 1, faultPc := v, faultInfo := v, status := .faulted }) ∧
    (cond ≠ 0 → s.prog.length ≤ (s.ip + 1 + v).toNat →
      ∃ t, t = { s with ip := s.ip + 1 + v, ostack := rest } ∧ exec .jrc s = .next t ∧
        step t = .next { t with
          cause := 1, faultPc := s.ip + 1 + v, faultInfo := s.ip + 1 + v, status := .faulted }) ∧
    (cond = 0 →
      exec .jpc s = .next { s with ip := s.ip + 1, ostack := rest } ∧
      exec .jrc s = .next { s with ip := s.ip + 1, ostack := rest })) ∧
  (∀ (s : State) (v : Word) (rest : List Word), s.status = .running → s.cstack = v :: rest →
    s.prog.length ≤ v.toNat →
      ∃ t, t = { s with ip := v, cstack := rest } ∧ exec .ret s = .next t ∧
        step t = .next { t with cause := 1, faultPc := v, faultInfo := v, status := .faulted }) ∧
  (∀ (i : Instr) (s t : State), i ∈ [Instr.call, .ret, .jp, .jpc, .jr, .jrc] → s.status = .running →
    exec i s = .next t → t.status = .running → t.prog.length ≤ t.ip.toNat →
      step t = .next { t with cause := 1, faultPc := t.ip, faultInfo := t.ip, status := .faulted } ∧
        (i = .ret → t.ostack = s.ostack ∧ s.cstack = t.ip :: t.cstack) ∧
        (i = .call → t.cstack = (s.ip + 1) :: s.cstack ∧ s.ostack = t.ip :: t.ostack))

/-- R201 item 9, R167, R168. With unbounded stacks no step raises either overflow. -/
def Obligations.NoOverflowWithUnboundedStacks : Prop :=
  ∀ s t : State, s.params.ostackDepth = none → s.params.cstackDepth = none → s.status = .running →
    step s = .next t → t.status = .faulted → t.cause ≠ Cause.ostackOverflow.code ∧ t.cause ≠ Cause.cstackOverflow.code

/-- R192. A run has one end: two ends of the run from one state are the same state, and further steps leave it. -/
def Obligations.RunsEndInOneState : Prop :=
  (∀ s t u : State, RunsTo s t → RunsTo s u → t = u) ∧
    (∀ s t : State, RunsTo s t → ∀ n, run n t = .next t)

/-- Every step and every instruction in every state answers a next state: no stop of the interface is ever used (the
model's choice of log 4, and of log 5 outside running). -/
def Obligations.NoStepStops : Prop :=
  (∀ (i : Instr) (s : State), ∃ t, exec i s = .next t) ∧ (∀ s : State, ∃ t, step s = .next t) ∧
    (∀ s : State, s.status ≠ .running → step s = .next s)

/-- The instruction placed by `withFetchWord` is the one the next step runs (logs 1, 15): wherever `ip` leaves room for two
words, under the default opcode map. -/
def Obligations.PlacedWordIsTheNextInstruction : Prop :=
  ∀ (s : State) (nbits w : Nat) (i : Instr), s.params.opcodes = OpcodeMap.dense → s.ip.toNat + 2 < 2 ^ 64 →
    decodeTableWord nbits w = some i → step (s.withFetchWord nbits w) = exec i (s.withFetchWord nbits w)

/-- R68. The assembler's expansions of `jp L`, `jpc L`, `jr n` and `jrc n` do what their statements say: two steps, the
operand stack as before (but for the condition of `jpc` and `jrc`, which is taken). The offset of `jr n` and `jrc n` counts
from the word after the expansion. -/
def Obligations.JumpStatementsExpandRight : Prop :=
  (∀ (s : State) (a : Word) (rest : List Word), Inv s → s.status = .running →
      s.params.ostackDepth ≠ some s.ostack.length →
      s.prog.drop s.ip.toNat = s.params.opcodes.push :: a :: s.params.opcodes.jp :: rest →
      run 2 s = .next { s with ip := a }) ∧
    (∀ (s : State) (a cond : Word) (st rest : List Word), Inv s → s.status = .running →
      s.params.ostackDepth ≠ some s.ostack.length → s.ostack = cond :: st →
      s.prog.drop s.ip.toNat = s.params.opcodes.push :: a :: s.params.opcodes.jpc :: rest →
      run 2 s = .next { s with ip := if cond = 0 then s.ip + 3 else a, ostack := st }) ∧
    (∀ (s : State) (n : Word) (rest : List Word), Inv s → s.status = .running →
      s.params.ostackDepth ≠ some s.ostack.length →
      s.prog.drop s.ip.toNat = s.params.opcodes.push :: n :: s.params.opcodes.jr :: rest →
      run 2 s = .next { s with ip := s.ip + 3 + n }) ∧
    (∀ (s : State) (n cond : Word) (st rest : List Word), Inv s → s.status = .running →
      s.params.ostackDepth ≠ some s.ostack.length → s.ostack = cond :: st →
      s.prog.drop s.ip.toNat = s.params.opcodes.push :: n :: s.params.opcodes.jrc :: rest →
      run 2 s = .next { s with ip := if cond = 0 then s.ip + 3 else s.ip + 3 + n, ostack := st })

/-- R66 to R71. The two passes of the assembler give what one pass with the labels known would: there is a table of
addresses under which the program is the statements' words one after another, each reference holding its label's address,
and the table gives every label the number of words before it. -/
def Obligations.AssemblerResolvesLabels : Prop :=
  ∀ (m : OpcodeMap) (ls : List Located) (ws : List Word), assembleStmts m ls = .ok ws →
    ∃ addr : List Char → Word,
      ws = (ls.map fun l => match l.stmt with
        | .ref op name => [m.push, addr name, m.value op]
        | .label _ => []
        | .plain op => [m.value op]
        | .numeric op n => if op.hasImmediate then [m.value op, n] else [m.push, n, m.value op]).flatten ∧
      ∀ (before after : List Located) (l : Located) (name : List Char), ls = before ++ l :: after →
        l.stmt = .label name → addr name = BitVec.ofNat 64 (before.map fun l => (stmtWords m l.stmt).length).sum

/-- R172, R193. What the host reads after a run: success with the output if the engine halted, the fault record with the
output if it faulted, and it is the same however often it is read or `RUN` is asked again. -/
def Obligations.HostReadsTheResult : Prop :=
  ∀ s t : State, RunsTo s t →
    (t.status = .halted → t.result = .success t.out) ∧
    (t.status = .faulted → t.result = .fatal t.cause t.faultPc t.faultInfo t.out) ∧
    (∀ n, serve (.run n) t = .next t)

/-- A later `INIT` request, in any state, is the reset of R190 with the new program (R199). That it keeps the engine's
parameters is the model's choice (log 18). -/
def Obligations.InitKeepsOnlyTheParameters : Prop :=
  ∀ (s : State) (prog : List Word), serve (.init prog) s = .next (State.init s.params prog)
end

