-- ==== Sys2Proof/Laws/Decode.lean ====
section
/-! SUPPORT. Small lemmas about the opcode map, the decoder and the encoder. -/

namespace Sys2Proof

theorem Opcode.mem_all (op : Opcode) : op ∈ Opcode.all := by
  cases op <;> decide

/-- An injective opcode map gives different opcodes different values (R5). -/
theorem OpcodeMap.value_injective {m : OpcodeMap} (h : m.wf = true) {a b : Opcode} (e : m.value a = m.value b) :
    a = b :=
  List.inj_on_of_nodup_map (of_decide_eq_true h) (Opcode.mem_all a) (Opcode.mem_all b) e

/-- The decoder answers only an opcode whose value the word is (R54). -/
theorem value_of_decodeOpcode {m : OpcodeMap} {w : Word} {op : Opcode} (h : decodeOpcode m w = some op) :
    m.value op = w := by
  simpa using List.find?_some h

@[simp] theorem Instr.opcode_instr (imm : Word) (op : Opcode) : (op.instr imm).opcode = op := by
  cases op <;> rfl

@[simp] theorem OpcodeMap.dense_wf : OpcodeMap.dense.wf = true := by decide

end Sys2Proof
end

