-- ==== Sys2Proof/Laws/Memory.lean ====
section
/-! SUPPORT. The laws of the memory list: reading after writing, and that every operation keeps the canonical form and the
capacity. -/

namespace Sys2Proof.Machine

/-- An address below every listed one reads as blank. -/
theorem Memory.readByte_eq_blank_of_below {m : Memory} {x : Nat} (h : ∀ c ∈ m, x < c.1) :
    m.readByte x = Memory.blankByte := by
  induction m with
  | nil => rfl
  | cons c m ih =>
    obtain ⟨a, b⟩ := c
    have hx : x < a := h (a, b) (by simp)
    have hne : a ≠ x := by omega
    simp only [Memory.readByte, hne, if_false]
    exact ih (fun c hc => h c (by simp [hc]))

/-- What the canonical form says of a non-empty list. -/
theorem Memory.wf_cons {a : Nat} {b : Byte} {m : Memory} :
    Memory.wf ((a, b) :: m) = true ↔ b ≠ Memory.blankByte ∧ (∀ c ∈ m, a < c.1) ∧ m.wf = true := by
  simp [Memory.wf, and_assoc]

/-- Every listed address after a write is the written one or was listed before. -/
theorem Memory.mem_writeByte {m : Memory} {x : Nat} {v : Byte} {c : Host.Cell} (h : c ∈ m.writeByte x v) :
    c = (x, v) ∨ c ∈ m := by
  induction m with
  | nil =>
    simp only [Memory.writeByte] at h
    split at h <;> simp_all
  | cons d m ih =>
    obtain ⟨a, b⟩ := d
    simp only [Memory.writeByte] at h
    split at h
    · split at h <;> simp_all
    · split at h
      · split at h
        · exact .inr (by simp [h])
        · rcases List.mem_cons.1 h with h | h
          · exact .inl h
          · exact .inr (by simp [h])
      · rcases List.mem_cons.1 h with h | h
        · exact .inr (by simp [h])
        · rcases ih h with h | h
          · exact .inl h
          · exact .inr (by simp [h])

/-- A write keeps the canonical form. -/
theorem Memory.writeByte_wf {m : Memory} (x : Nat) (v : Byte) (h : m.wf = true) : (m.writeByte x v).wf = true := by
  induction m with
  | nil =>
    simp only [Memory.writeByte]
    split <;> simp_all [Memory.wf]
  | cons d m ih =>
    obtain ⟨a, b⟩ := d
    obtain ⟨hb, hlt, hm⟩ := Memory.wf_cons.1 h
    simp only [Memory.writeByte]
    split
    · split
      · exact h
      · rename_i hxa hv
        refine Memory.wf_cons.2 ⟨hv, fun c hc => ?_, h⟩
        rcases List.mem_cons.1 hc with rfl | hc
        · exact hxa
        · have := hlt c hc; omega
    · split
      · rename_i hxa
        subst hxa
        split
        · exact hm
        · rename_i hv
          exact Memory.wf_cons.2 ⟨hv, hlt, hm⟩
      · refine Memory.wf_cons.2 ⟨hb, fun c hc => ?_, ih hm⟩
        rcases Memory.mem_writeByte hc with rfl | hc
        · simp only; omega
        · exact hlt c hc

/-- A write inside the capacity keeps every listed address inside it. -/
theorem Memory.writeByte_within {m : Memory} {x : Nat} {v : Byte} {cap : Nat} (h : m.within cap = true) (hx : x < cap) :
    (m.writeByte x v).within cap = true := by
  simp only [Memory.within, List.all_eq_true, decide_eq_true_eq] at h ⊢
  intro c hc
  rcases Memory.mem_writeByte hc with rfl | hc
  · exact hx
  · exact h c hc

/-- Reading after writing one byte: the written value at its address, every other byte as before. -/
theorem Memory.readByte_writeByte {m : Memory} (h : m.wf = true) (x : Nat) (v : Byte) (y : Nat) :
    (m.writeByte x v).readByte y = if y = x then v else m.readByte y := by
  induction m with
  | nil =>
    simp only [Memory.writeByte]
    split <;> rename_i hv <;> simp only [Memory.readByte] <;> split <;> simp_all
    all_goals omega
  | cons d m ih =>
    obtain ⟨a, b⟩ := d
    obtain ⟨hb, hlt, hm⟩ := Memory.wf_cons.1 h
    have below : ∀ z, z ≤ a → Memory.readByte m z = Memory.blankByte := fun z hz =>
      Memory.readByte_eq_blank_of_below (fun c hc => by have := hlt c hc; omega)
    simp only [Memory.writeByte]
    split
    · rename_i hxa
      have hne : a ≠ x := by omega
      split
      · rename_i hv
        split
        · rename_i hy
          subst hy
          simp [Memory.readByte, hne, below y (by omega), hv]
        · rfl
      · by_cases hy : y = x
        · subst hy
          simp [Memory.readByte]
        · have : x ≠ y := fun e => hy e.symm
          simp [Memory.readByte, hy, this]
    · split
      · rename_i hxa
        subst hxa
        split
        · rename_i hv
          by_cases hy : y = x
          · subst hy
            simp [below y (Nat.le_refl y), hv]
          · have : x ≠ y := fun e => hy e.symm
            simp [Memory.readByte, hy, this]
        · by_cases hy : y = x
          · subst hy
            simp [Memory.readByte]
          · have : x ≠ y := fun e => hy e.symm
            simp [Memory.readByte, hy, this]
      · rename_i hnlt hne
        simp only [Memory.readByte, ih hm]
        by_cases hy : a = y
        · subst hy
          have : ¬ a = x := fun e => hne e.symm
          simp [this]
        · simp [hy]

/-- Storing a run of bytes keeps the canonical form. -/
theorem Memory.writeBytes_wf {m : Memory} (h : m.wf = true) (addr : Nat) (bs : List Byte) :
    (m.writeBytes addr bs).wf = true := by
  induction bs generalizing m addr with
  | nil => exact h
  | cons b bs ih => exact ih (Memory.writeByte_wf addr b h) (addr + 1)

/-- Storing a run of bytes inside the capacity keeps every listed address inside it. -/
theorem Memory.writeBytes_within {m : Memory} {cap : Nat} (h : m.within cap = true) (addr : Nat) (bs : List Byte)
    (hb : addr + bs.length ≤ cap) : (m.writeBytes addr bs).within cap = true := by
  induction bs generalizing m addr with
  | nil => exact h
  | cons b bs ih =>
    simp only [List.length_cons] at hb
    exact ih (Memory.writeByte_within h (by omega)) (addr + 1) (by omega)

/-- Reading after storing a run of bytes: the stored byte inside the run, every other byte as before. -/
theorem Memory.readByte_writeBytes {m : Memory} (h : m.wf = true) (addr : Nat) (bs : List Byte) (x : Nat) :
    (m.writeBytes addr bs).readByte x =
      if addr ≤ x then (bs[x - addr]?).getD (m.readByte x) else m.readByte x := by
  induction bs generalizing m addr with
  | nil => simp [Memory.writeBytes]
  | cons b bs ih =>
    rw [Memory.writeBytes, ih (Memory.writeByte_wf addr b h), Memory.readByte_writeByte h]
    by_cases hx : x = addr
    · subst hx
      simp
    · by_cases hlt : addr ≤ x
      · have h1 : addr + 1 ≤ x := by omega
        have h2 : x - addr = (x - (addr + 1)) + 1 := by omega
        simp [hlt, h1, h2, hx]
      · have h1 : ¬ addr + 1 ≤ x := by omega
        simp [hlt, h1, hx]

@[simp] theorem Memory.length_readBytes (m : Memory) (addr n : Nat) : (m.readBytes addr n).length = n := by
  simp [Memory.readBytes]

@[simp] theorem length_leBytes (v : Word) (n : Nat) : (leBytes v n).length = n := by
  simp [leBytes]

/-- Byte `k` of a word stored in `n` bytes is `v[8k+7 : 8k]` (R32). -/
theorem getElem?_leBytes (v : Word) (n k : Nat) :
    (leBytes v n)[k]? = if k < n then some (v.extractLsb' (8 * k) 8) else none := by
  by_cases h : k < n <;> simp [leBytes, h]

/-- The value of `n` bytes is below `2^(8n)` (R31). -/
theorem leValue_lt (bs : List Byte) : leValue bs < 2 ^ (8 * bs.length) := by
  induction bs with
  | nil => simp [leValue]
  | cons b bs ih =>
    have hb : b.toNat < 256 := b.isLt
    have : 2 ^ (8 * (b :: bs).length) = 256 * 2 ^ (8 * bs.length) := by
      rw [List.length_cons, Nat.mul_add, Nat.pow_add]; norm_num [Nat.mul_comm]
    rw [this, leValue]
    omega

end Sys2Proof.Machine
end

