-- ==== Sys2Proof/Laws/State.lean ====
section
/-! SUPPORT. One lemma per field of the state per update, each true by rfl, so that no proof unfolds a record update. -/

namespace Sys2Proof.Machine

variable (s : State)

/-! `State.setIp`. -/

@[simp] theorem State.setIp_params (t : Word) : (s.setIp t).params = s.params := rfl
@[simp] theorem State.setIp_prog (t : Word) : (s.setIp t).prog = s.prog := rfl
@[simp] theorem State.setIp_ip (t : Word) : (s.setIp t).ip = t := rfl
@[simp] theorem State.setIp_ostack (t : Word) : (s.setIp t).ostack = s.ostack := rfl
@[simp] theorem State.setIp_cstack (t : Word) : (s.setIp t).cstack = s.cstack := rfl
@[simp] theorem State.setIp_mem (t : Word) : (s.setIp t).mem = s.mem := rfl
@[simp] theorem State.setIp_status (t : Word) : (s.setIp t).status = s.status := rfl
@[simp] theorem State.setIp_cause (t : Word) : (s.setIp t).cause = s.cause := rfl
@[simp] theorem State.setIp_faultPc (t : Word) : (s.setIp t).faultPc = s.faultPc := rfl
@[simp] theorem State.setIp_faultInfo (t : Word) : (s.setIp t).faultInfo = s.faultInfo := rfl
@[simp] theorem State.setIp_out (t : Word) : (s.setIp t).out = s.out := rfl

/-! `State.setOstack`. -/

@[simp] theorem State.setOstack_params (st : List Word) : (s.setOstack st).params = s.params := rfl
@[simp] theorem State.setOstack_prog (st : List Word) : (s.setOstack st).prog = s.prog := rfl
@[simp] theorem State.setOstack_ip (st : List Word) : (s.setOstack st).ip = s.ip := rfl
@[simp] theorem State.setOstack_ostack (st : List Word) : (s.setOstack st).ostack = st := rfl
@[simp] theorem State.setOstack_cstack (st : List Word) : (s.setOstack st).cstack = s.cstack := rfl
@[simp] theorem State.setOstack_mem (st : List Word) : (s.setOstack st).mem = s.mem := rfl
@[simp] theorem State.setOstack_status (st : List Word) : (s.setOstack st).status = s.status := rfl
@[simp] theorem State.setOstack_cause (st : List Word) : (s.setOstack st).cause = s.cause := rfl
@[simp] theorem State.setOstack_faultPc (st : List Word) : (s.setOstack st).faultPc = s.faultPc := rfl
@[simp] theorem State.setOstack_faultInfo (st : List Word) : (s.setOstack st).faultInfo = s.faultInfo := rfl
@[simp] theorem State.setOstack_out (st : List Word) : (s.setOstack st).out = s.out := rfl

/-! `State.setCstack`. -/

@[simp] theorem State.setCstack_params (st : List Word) : (s.setCstack st).params = s.params := rfl
@[simp] theorem State.setCstack_prog (st : List Word) : (s.setCstack st).prog = s.prog := rfl
@[simp] theorem State.setCstack_ip (st : List Word) : (s.setCstack st).ip = s.ip := rfl
@[simp] theorem State.setCstack_ostack (st : List Word) : (s.setCstack st).ostack = s.ostack := rfl
@[simp] theorem State.setCstack_cstack (st : List Word) : (s.setCstack st).cstack = st := rfl
@[simp] theorem State.setCstack_mem (st : List Word) : (s.setCstack st).mem = s.mem := rfl
@[simp] theorem State.setCstack_status (st : List Word) : (s.setCstack st).status = s.status := rfl
@[simp] theorem State.setCstack_cause (st : List Word) : (s.setCstack st).cause = s.cause := rfl
@[simp] theorem State.setCstack_faultPc (st : List Word) : (s.setCstack st).faultPc = s.faultPc := rfl
@[simp] theorem State.setCstack_faultInfo (st : List Word) : (s.setCstack st).faultInfo = s.faultInfo := rfl
@[simp] theorem State.setCstack_out (st : List Word) : (s.setCstack st).out = s.out := rfl

/-! `State.setMem`. -/

@[simp] theorem State.setMem_params (m : Memory) : (s.setMem m).params = s.params := rfl
@[simp] theorem State.setMem_prog (m : Memory) : (s.setMem m).prog = s.prog := rfl
@[simp] theorem State.setMem_ip (m : Memory) : (s.setMem m).ip = s.ip := rfl
@[simp] theorem State.setMem_ostack (m : Memory) : (s.setMem m).ostack = s.ostack := rfl
@[simp] theorem State.setMem_cstack (m : Memory) : (s.setMem m).cstack = s.cstack := rfl
@[simp] theorem State.setMem_mem (m : Memory) : (s.setMem m).mem = m := rfl
@[simp] theorem State.setMem_status (m : Memory) : (s.setMem m).status = s.status := rfl
@[simp] theorem State.setMem_cause (m : Memory) : (s.setMem m).cause = s.cause := rfl
@[simp] theorem State.setMem_faultPc (m : Memory) : (s.setMem m).faultPc = s.faultPc := rfl
@[simp] theorem State.setMem_faultInfo (m : Memory) : (s.setMem m).faultInfo = s.faultInfo := rfl
@[simp] theorem State.setMem_out (m : Memory) : (s.setMem m).out = s.out := rfl

/-! `State.emit`. -/

@[simp] theorem State.emit_params (bs : List Byte) : (s.emit bs).params = s.params := rfl
@[simp] theorem State.emit_prog (bs : List Byte) : (s.emit bs).prog = s.prog := rfl
@[simp] theorem State.emit_ip (bs : List Byte) : (s.emit bs).ip = s.ip := rfl
@[simp] theorem State.emit_ostack (bs : List Byte) : (s.emit bs).ostack = s.ostack := rfl
@[simp] theorem State.emit_cstack (bs : List Byte) : (s.emit bs).cstack = s.cstack := rfl
@[simp] theorem State.emit_mem (bs : List Byte) : (s.emit bs).mem = s.mem := rfl
@[simp] theorem State.emit_status (bs : List Byte) : (s.emit bs).status = s.status := rfl
@[simp] theorem State.emit_cause (bs : List Byte) : (s.emit bs).cause = s.cause := rfl
@[simp] theorem State.emit_faultPc (bs : List Byte) : (s.emit bs).faultPc = s.faultPc := rfl
@[simp] theorem State.emit_faultInfo (bs : List Byte) : (s.emit bs).faultInfo = s.faultInfo := rfl
@[simp] theorem State.emit_out (bs : List Byte) : (s.emit bs).out = s.out ++ bs := rfl

/-! `State.halt`. -/

@[simp] theorem State.halt_params : (s.halt).params = s.params := rfl
@[simp] theorem State.halt_prog : (s.halt).prog = s.prog := rfl
@[simp] theorem State.halt_ip : (s.halt).ip = s.ip := rfl
@[simp] theorem State.halt_ostack : (s.halt).ostack = s.ostack := rfl
@[simp] theorem State.halt_cstack : (s.halt).cstack = s.cstack := rfl
@[simp] theorem State.halt_mem : (s.halt).mem = s.mem := rfl
@[simp] theorem State.halt_status : (s.halt).status = .halted := rfl
@[simp] theorem State.halt_cause : (s.halt).cause = s.cause := rfl
@[simp] theorem State.halt_faultPc : (s.halt).faultPc = s.faultPc := rfl
@[simp] theorem State.halt_faultInfo : (s.halt).faultInfo = s.faultInfo := rfl
@[simp] theorem State.halt_out : (s.halt).out = s.out := rfl

/-! `State.advance`. -/

@[simp] theorem State.advance_params (n : Nat) : (s.advance n).params = s.params := rfl
@[simp] theorem State.advance_prog (n : Nat) : (s.advance n).prog = s.prog := rfl
@[simp] theorem State.advance_ip (n : Nat) : (s.advance n).ip = s.ip + BitVec.ofNat 64 n := rfl
@[simp] theorem State.advance_ostack (n : Nat) : (s.advance n).ostack = s.ostack := rfl
@[simp] theorem State.advance_cstack (n : Nat) : (s.advance n).cstack = s.cstack := rfl
@[simp] theorem State.advance_mem (n : Nat) : (s.advance n).mem = s.mem := rfl
@[simp] theorem State.advance_status (n : Nat) : (s.advance n).status = s.status := rfl
@[simp] theorem State.advance_cause (n : Nat) : (s.advance n).cause = s.cause := rfl
@[simp] theorem State.advance_faultPc (n : Nat) : (s.advance n).faultPc = s.faultPc := rfl
@[simp] theorem State.advance_faultInfo (n : Nat) : (s.advance n).faultInfo = s.faultInfo := rfl
@[simp] theorem State.advance_out (n : Nat) : (s.advance n).out = s.out := rfl

/-! `takeFault` (R169). -/

@[simp] theorem takeFault_params (r : Raise) : (takeFault s r).params = s.params := rfl
@[simp] theorem takeFault_prog (r : Raise) : (takeFault s r).prog = s.prog := rfl
@[simp] theorem takeFault_ip (r : Raise) : (takeFault s r).ip = s.ip := rfl
@[simp] theorem takeFault_ostack (r : Raise) : (takeFault s r).ostack = s.ostack := rfl
@[simp] theorem takeFault_cstack (r : Raise) : (takeFault s r).cstack = s.cstack := rfl
@[simp] theorem takeFault_mem (r : Raise) : (takeFault s r).mem = s.mem := rfl
@[simp] theorem takeFault_status (r : Raise) : (takeFault s r).status = .faulted := rfl
@[simp] theorem takeFault_cause (r : Raise) : (takeFault s r).cause = r.cause.code := rfl
@[simp] theorem takeFault_faultPc (r : Raise) : (takeFault s r).faultPc = s.ip := rfl
@[simp] theorem takeFault_faultInfo (r : Raise) : (takeFault s r).faultInfo = r.info := rfl
@[simp] theorem takeFault_out (r : Raise) : (takeFault s r).out = s.out := rfl

/-! `State.init` (R190, R24). -/

@[simp] theorem State.init_params (p : Params) (prog : List Word) : (State.init p prog).params = p := rfl
@[simp] theorem State.init_prog (p : Params) (prog : List Word) : (State.init p prog).prog = prog := rfl
@[simp] theorem State.init_ip (p : Params) (prog : List Word) : (State.init p prog).ip = 0 := rfl
@[simp] theorem State.init_ostack (p : Params) (prog : List Word) : (State.init p prog).ostack = [] := rfl
@[simp] theorem State.init_cstack (p : Params) (prog : List Word) : (State.init p prog).cstack = [] := rfl
@[simp] theorem State.init_mem (p : Params) (prog : List Word) : (State.init p prog).mem = [] := rfl
@[simp] theorem State.init_status (p : Params) (prog : List Word) : (State.init p prog).status = .running := rfl
@[simp] theorem State.init_cause (p : Params) (prog : List Word) : (State.init p prog).cause = 0 := rfl
@[simp] theorem State.init_faultPc (p : Params) (prog : List Word) : (State.init p prog).faultPc = 0 := rfl
@[simp] theorem State.init_faultInfo (p : Params) (prog : List Word) : (State.init p prog).faultInfo = 0 := rfl
@[simp] theorem State.init_out (p : Params) (prog : List Word) : (State.init p prog).out = [] := rfl

end Sys2Proof.Machine
end

