-- ==== Sys2Proof/Laws/Ops.lean ====
section
/-! SUPPORT. What each shared operation can do, said once: for each primitive and each operand form, when it answers and
what, and when it raises and what. Proofs cite these and unfold no primitive. -/

namespace Sys2Proof.Machine

/-- A sequence of two operations answers exactly if both do. -/
theorem bind_eq_ok {α β : Type} {x : Except Raise α} {f : α → Except Raise β} {b : β} :
    (x >>= f) = .ok b ↔ ∃ a, x = .ok a ∧ f a = .ok b := by
  cases x <;> simp [bind, Except.bind]

/-- A sequence of two operations raises what the first raises, or what the second raises after it. -/
theorem bind_eq_error {α β : Type} {x : Except Raise α} {f : α → Except Raise β} {e : Raise} :
    (x >>= f) = .error e ↔ x = .error e ∨ ∃ a, x = .ok a ∧ f a = .error e := by
  cases x <;> simp [bind, Except.bind]

@[simp] theorem ok_bind {α β : Type} (a : α) (f : α → Except Raise β) :
    ((Except.ok a : Except Raise α) >>= f) = f a := rfl

@[simp] theorem error_bind {α β : Type} (e : Raise) (f : α → Except Raise β) :
    ((Except.error e : Except Raise α) >>= f) = .error e := rfl

@[simp] theorem pure_eq_ok {α : Type} (a : α) : (pure a : Except Raise α) = .ok a := rfl

/-- An instruction's end is always a next state: its own, or the fault taken. -/
theorem finish_cases {s : State} {r : Except Raise State} {t : State} (h : finish s r = .next t) :
    r = .ok t ∨ ∃ e, r = .error e ∧ t = takeFault s e := by
  cases r with
  | ok s' => exact .inl (by simpa [finish] using h)
  | error e => exact .inr ⟨e, rfl, by simpa [finish] using h.symm⟩

@[simp] theorem finish_ok (s t : State) : finish s (.ok t) = .next t := rfl

@[simp] theorem finish_error (s : State) (e : Raise) : finish s (.error e) = .next (takeFault s e) := rfl

/-! The operand stack. -/

theorem pop_eq_ok {s s' : State} {v : Word} :
    pop s = .ok (v, s') ↔ ∃ rest, s.ostack = v :: rest ∧ s' = s.setOstack rest := by
  unfold pop
  split <;> rename_i h
  · simp [h]
  · simp only [h, Except.ok.injEq, Prod.mk.injEq, List.cons.injEq]
    constructor
    · rintro ⟨rfl, rfl⟩
      exact ⟨_, ⟨rfl, rfl⟩, rfl⟩
    · rintro ⟨r, ⟨rfl, rfl⟩, rfl⟩
      exact ⟨rfl, rfl⟩

theorem pop_eq_error {s : State} {e : Raise} :
    pop s = .error e ↔ s.ostack = [] ∧ e = ⟨.ostackUnderflow, 0⟩ := by
  unfold pop
  split <;> rename_i h <;> simp [h, eq_comm]

theorem push_eq_ok {s s' : State} {v : Word} :
    push v s = .ok s' ↔ s.params.ostackDepth ≠ some s.ostack.length ∧ s' = s.setOstack (v :: s.ostack) := by
  unfold push
  split <;> rename_i h <;> simp [h, eq_comm]

theorem push_eq_error {s : State} {v : Word} {e : Raise} :
    push v s = .error e ↔ s.params.ostackDepth = some s.ostack.length ∧ e = ⟨.ostackOverflow, 0⟩ := by
  unfold push
  split <;> rename_i h <;> simp [h, eq_comm]

theorem peek_eq_ok {s : State} {n v : Word} : peek n s = .ok v ↔ s.ostack[n.toNat]? = some v := by
  unfold peek
  split <;> rename_i h <;> simp [h]

theorem peek_eq_error {s : State} {n : Word} {e : Raise} :
    peek n s = .error e ↔ s.ostack.length ≤ n.toNat ∧ e = ⟨.ostackUnderflow, 0⟩ := by
  unfold peek
  split <;> rename_i h
  · simp [List.getElem?_eq_none_iff.1 h, eq_comm]
  · have := (List.getElem?_eq_some_iff.1 h).1
    simp [this]

/-! The call stack. -/

theorem cpop_eq_ok {s s' : State} {v : Word} :
    cpop s = .ok (v, s') ↔ ∃ rest, s.cstack = v :: rest ∧ s' = s.setCstack rest := by
  unfold cpop
  split <;> rename_i h
  · simp [h]
  · simp only [h, Except.ok.injEq, Prod.mk.injEq, List.cons.injEq]
    constructor
    · rintro ⟨rfl, rfl⟩
      exact ⟨_, ⟨rfl, rfl⟩, rfl⟩
    · rintro ⟨r, ⟨rfl, rfl⟩, rfl⟩
      exact ⟨rfl, rfl⟩

theorem cpop_eq_error {s : State} {e : Raise} :
    cpop s = .error e ↔ s.cstack = [] ∧ e = ⟨.cstackUnderflow, 0⟩ := by
  unfold cpop
  split <;> rename_i h <;> simp [h, eq_comm]

theorem cpush_eq_ok {s s' : State} {v : Word} :
    cpush v s = .ok s' ↔ s.params.cstackDepth ≠ some s.cstack.length ∧ s' = s.setCstack (v :: s.cstack) := by
  unfold cpush
  split <;> rename_i h <;> simp [h, eq_comm]

theorem cpush_eq_error {s : State} {v : Word} {e : Raise} :
    cpush v s = .error e ↔ s.params.cstackDepth = some s.cstack.length ∧ e = ⟨.cstackOverflow, 0⟩ := by
  unfold cpush
  split <;> rename_i h <;> simp [h, eq_comm]

/-! The memory controller. -/

theorem inBounds_iff {s : State} {addr : Word} {n : Nat} :
    inBounds s addr n = true ↔ addr.toNat + n ≤ s.params.memCapacity := by
  simp [inBounds]

theorem memRead_eq_ok {s : State} {addr v : Word} {n : Nat} :
    memRead addr n s = .ok v ↔
      inBounds s addr n = true ∧ v = BitVec.ofNat 64 (leValue (s.mem.readBytes addr.toNat n)) := by
  unfold memRead
  split <;> rename_i h <;> simp [h, eq_comm]

theorem memRead_eq_error {s : State} {addr : Word} {n : Nat} {e : Raise} :
    memRead addr n s = .error e ↔ inBounds s addr n = false ∧ e = ⟨.memOob, addr⟩ := by
  unfold memRead
  cases h : inBounds s addr n <;> simp [eq_comm]

theorem memWrite_eq_ok {s s' : State} {addr v : Word} {n : Nat} :
    memWrite addr n v s = .ok s' ↔
      inBounds s addr n = true ∧ s' = s.setMem (s.mem.writeBytes addr.toNat (leBytes v n)) := by
  unfold memWrite
  split <;> rename_i h <;> simp [h, eq_comm]

theorem memWrite_eq_error {s : State} {addr v : Word} {n : Nat} {e : Raise} :
    memWrite addr n v s = .error e ↔ inBounds s addr n = false ∧ e = ⟨.memOob, addr⟩ := by
  unfold memWrite
  cases h : inBounds s addr n <;> simp [eq_comm]

theorem memBytes_eq_ok {s : State} {addr n : Word} {bs : List Byte} :
    memBytes addr n s = .ok bs ↔
      inBounds s addr n.toNat = true ∧ bs = s.mem.readBytes addr.toNat n.toNat := by
  unfold memBytes
  split <;> rename_i h <;> simp [h, eq_comm]

theorem memBytes_eq_error {s : State} {addr n : Word} {e : Raise} :
    memBytes addr n s = .error e ↔ inBounds s addr n.toNat = false ∧ e = ⟨.memOob, addr⟩ := by
  unfold memBytes
  cases h : inBounds s addr n.toNat <;> simp [eq_comm]

/-! The operand forms. -/

theorem pop2_eq_ok {s s' : State} {x y : Word} :
    pop2 s = .ok (x, y, s') ↔ ∃ rest, s.ostack = x :: y :: rest ∧ s' = s.setOstack rest := by
  unfold pop2
  simp only [bind_eq_ok, pure_eq_ok, Except.ok.injEq, Prod.exists, pop_eq_ok, Prod.mk.injEq]
  constructor
  · rintro ⟨a, s1, ⟨r1, h1, rfl⟩, b, s2, ⟨r2, h2, rfl⟩, rfl, rfl, rfl⟩
    simp only [State.setOstack_ostack] at h2
    exact ⟨r2, by rw [h1, h2], rfl⟩
  · rintro ⟨r, h, rfl⟩
    exact ⟨x, s.setOstack (y :: r), ⟨_, h, rfl⟩, y, _, ⟨r, rfl, rfl⟩, rfl, rfl, rfl⟩

theorem pop2_eq_error {s : State} {e : Raise} :
    pop2 s = .error e ↔ s.ostack.length < 2 ∧ e = ⟨.ostackUnderflow, 0⟩ := by
  rcases hs : s.ostack with _ | ⟨a, _ | ⟨b, r⟩⟩ <;> simp [pop2, pop, hs, eq_comm]

/-- The arithmetic and comparison form: two operands off, one result on. -/
theorem binary_eq_ok {f : Word → Word → Word} {s s' : State} :
    binary f s = .ok s' ↔ ∃ a b rest, s.ostack = a :: b :: rest ∧
      s.params.ostackDepth ≠ some rest.length ∧ s' = s.setOstack (f a b :: rest) := by
  unfold binary
  simp only [bind_eq_ok, Prod.exists, pop2_eq_ok, push_eq_ok]
  constructor
  · rintro ⟨a, b, s1, ⟨r, h, rfl⟩, hd, rfl⟩
    exact ⟨a, b, r, h, hd, rfl⟩
  · rintro ⟨a, b, r, h, hd, rfl⟩
    exact ⟨a, b, _, ⟨r, h, rfl⟩, hd, rfl⟩

theorem binary_eq_error {f : Word → Word → Word} {s : State} {e : Raise} :
    binary f s = .error e ↔ (s.ostack.length < 2 ∧ e = ⟨.ostackUnderflow, 0⟩) ∨
      ∃ a b rest, s.ostack = a :: b :: rest ∧ s.params.ostackDepth = some rest.length ∧
        e = ⟨.ostackOverflow, 0⟩ := by
  unfold binary
  simp only [bind_eq_error, Prod.exists, pop2_eq_ok, pop2_eq_error, push_eq_error]
  refine or_congr Iff.rfl ⟨?_, ?_⟩
  · rintro ⟨a, b, s1, ⟨r, h, rfl⟩, hd, rfl⟩
    exact ⟨a, b, r, h, hd, rfl⟩
  · rintro ⟨a, b, r, h, hd, rfl⟩
    exact ⟨a, b, _, ⟨r, h, rfl⟩, hd, rfl⟩

/-- The load form: the address off, the value on, memory as it was. -/
theorem load_eq_ok {n : Nat} {s s' : State} :
    load n s = .ok s' ↔ ∃ addr rest, s.ostack = addr :: rest ∧ inBounds s addr n = true ∧
      s.params.ostackDepth ≠ some rest.length ∧
      s' = s.setOstack (BitVec.ofNat 64 (leValue (s.mem.readBytes addr.toNat n)) :: rest) := by
  unfold load
  simp only [bind_eq_ok, Prod.exists, pop_eq_ok, memRead_eq_ok, push_eq_ok]
  constructor
  · rintro ⟨a, s1, ⟨r, h, rfl⟩, v, ⟨hb, rfl⟩, hd, rfl⟩
    exact ⟨a, r, h, hb, hd, rfl⟩
  · rintro ⟨a, r, h, hb, hd, rfl⟩
    exact ⟨a, _, ⟨r, h, rfl⟩, _, ⟨hb, rfl⟩, hd, rfl⟩

theorem load_eq_error {n : Nat} {s : State} {e : Raise} :
    load n s = .error e ↔ (s.ostack = [] ∧ e = ⟨.ostackUnderflow, 0⟩) ∨
      ∃ addr rest, s.ostack = addr :: rest ∧
        ((inBounds s addr n = false ∧ e = ⟨.memOob, addr⟩) ∨
         (inBounds s addr n = true ∧ s.params.ostackDepth = some rest.length ∧ e = ⟨.ostackOverflow, 0⟩)) := by
  unfold load
  simp only [bind_eq_error, Prod.exists, pop_eq_ok, pop_eq_error, memRead_eq_ok, memRead_eq_error, push_eq_error]
  refine or_congr Iff.rfl ⟨?_, ?_⟩
  · rintro ⟨a, s1, ⟨r, h, rfl⟩, ⟨hb, rfl⟩ | ⟨v, ⟨hb, rfl⟩, hd, rfl⟩⟩
    · exact ⟨a, r, h, .inl ⟨hb, rfl⟩⟩
    · exact ⟨a, r, h, .inr ⟨hb, hd, rfl⟩⟩
  · rintro ⟨a, r, h, ⟨hb, rfl⟩ | ⟨hb, hd, rfl⟩⟩
    · exact ⟨a, _, ⟨r, h, rfl⟩, .inl ⟨hb, rfl⟩⟩
    · exact ⟨a, _, ⟨r, h, rfl⟩, .inr ⟨_, ⟨hb, rfl⟩, hd, rfl⟩⟩

/-- The store form: address and value off, the value's low bytes stored at the address. -/
theorem store_eq_ok {n : Nat} {s s' : State} :
    store n s = .ok s' ↔ ∃ addr value rest, s.ostack = addr :: value :: rest ∧ inBounds s addr n = true ∧
      s' = (s.setOstack rest).setMem (s.mem.writeBytes addr.toNat (leBytes value n)) := by
  unfold store
  simp only [bind_eq_ok, Prod.exists, pop2_eq_ok, memWrite_eq_ok]
  constructor
  · rintro ⟨a, v, s1, ⟨r, h, rfl⟩, hb, rfl⟩
    exact ⟨a, v, r, h, hb, rfl⟩
  · rintro ⟨a, v, r, h, hb, rfl⟩
    exact ⟨a, v, _, ⟨r, h, rfl⟩, hb, rfl⟩

theorem store_eq_error {n : Nat} {s : State} {e : Raise} :
    store n s = .error e ↔ (s.ostack.length < 2 ∧ e = ⟨.ostackUnderflow, 0⟩) ∨
      ∃ addr value rest, s.ostack = addr :: value :: rest ∧ inBounds s addr n = false ∧ e = ⟨.memOob, addr⟩ := by
  unfold store
  simp only [bind_eq_error, Prod.exists, pop2_eq_ok, pop2_eq_error, memWrite_eq_error]
  refine or_congr Iff.rfl ⟨?_, ?_⟩
  · rintro ⟨a, v, s1, ⟨r, h, rfl⟩, hb, rfl⟩
    exact ⟨a, v, r, h, hb, rfl⟩
  · rintro ⟨a, v, r, h, hb, rfl⟩
    exact ⟨a, v, _, ⟨r, h, rfl⟩, hb, rfl⟩

/-- The unconditional transfer form: one operand off, `ip` written. -/
theorem transfer_eq_ok {target : Word → Word → Word} {s s' : State} :
    transfer target s = .ok s' ↔ ∃ t rest, s.ostack = t :: rest ∧
      s' = (s.setOstack rest).setIp (target s.ip t) := by
  unfold transfer
  simp only [bind_eq_ok, Prod.exists, pop_eq_ok, pure_eq_ok, Except.ok.injEq]
  constructor
  · rintro ⟨t, s1, ⟨r, h, rfl⟩, rfl⟩
    exact ⟨t, r, h, rfl⟩
  · rintro ⟨t, r, h, rfl⟩
    exact ⟨t, _, ⟨r, h, rfl⟩, rfl⟩

theorem transfer_eq_error {target : Word → Word → Word} {s : State} {e : Raise} :
    transfer target s = .error e ↔ s.ostack = [] ∧ e = ⟨.ostackUnderflow, 0⟩ := by
  unfold transfer
  simp [bind_eq_error, pop_eq_error]

/-- The conditional transfer form: two operands off, `ip` written if the condition is not zero. -/
theorem transferIf_eq_ok {target : Word → Word → Word} {s s' : State} :
    transferIf target s = .ok s' ↔ ∃ t cond rest, s.ostack = t :: cond :: rest ∧
      s' = if condTrue cond then (s.setOstack rest).setIp (target s.ip t) else s.setOstack rest := by
  unfold transferIf
  simp only [bind_eq_ok, Prod.exists, pop2_eq_ok, pure_eq_ok, Except.ok.injEq]
  constructor
  · rintro ⟨t, c, s1, ⟨r, h, rfl⟩, rfl⟩
    exact ⟨t, c, r, h, rfl⟩
  · rintro ⟨t, c, r, h, rfl⟩
    exact ⟨t, c, _, ⟨r, h, rfl⟩, rfl⟩

theorem transferIf_eq_error {target : Word → Word → Word} {s : State} {e : Raise} :
    transferIf target s = .error e ↔ s.ostack.length < 2 ∧ e = ⟨.ostackUnderflow, 0⟩ := by
  unfold transferIf
  simp [bind_eq_error, pop2_eq_error]

/-- The verdict of a comparison, the first-popped operand on the left (R105). -/
theorem compareWords_eq (rel : Nat → Nat → Bool) (a b : Word) :
    compareWords rel a b = if rel a.toNat b.toNat = true then 1 else 0 := rfl

/-! Fetch. -/

theorem fetchWord_eq_ok {s : State} {a w : Word} : fetchWord s a = .ok w ↔ s.prog[a.toNat]? = some w := by
  unfold fetchWord
  split <;> rename_i h <;> simp [h]

theorem fetchWord_eq_error {s : State} {a : Word} {e : Raise} :
    fetchWord s a = .error e ↔ s.prog.length ≤ a.toNat ∧ e = ⟨.fetchOob, a⟩ := by
  unfold fetchWord
  split <;> rename_i h
  · simp [List.getElem?_eq_none_iff.1 h, eq_comm]
  · have := (List.getElem?_eq_some_iff.1 h).1
    simp [this]

end Sys2Proof.Machine
end

