-- ==== Sys2Proof/Laws/Exec.lean ====
section
/-! SUPPORT. The inversion of `exec`, said once: a next state is either the fault taken or the instruction's own effect.
Invariants and frames are case analyses of it and unfold no meaning. -/

namespace Sys2Proof.Machine

/-- The function of an arithmetic or comparison instruction, of the first-popped and the second-popped operand. -/
def binaryFn : Instr → Option (Word → Word → Word)
  | .add => some fun a b => b + a
  | .sub => some fun a b => b - a
  | .multu => some fun a b => b * a
  | .gt => some (compareWords fun x y => decide (x > y))
  | .lt => some (compareWords fun x y => decide (x < y))
  | .eq => some (compareWords fun x y => decide (x = y))
  | .ge => some (compareWords fun x y => decide (x ≥ y))
  | .le => some (compareWords fun x y => decide (x ≤ y))
  | _ => none

/-- The target of a jump, of the address after the opcode word and the popped word. -/
def targetFn : Instr → Option (Word → Word → Word)
  | .jp | .jpc => some absolute
  | .jr | .jrc => some relative
  | _ => none

/-- The states an instruction's own effect can lead to. -/
inductive Effect (s : State) : Instr → State → Prop where
  | push (imm : Word) (room : s.params.ostackDepth ≠ some s.ostack.length) :
    Effect s (.push imm) ((s.advance 2).setOstack (imm :: s.ostack))
  | dup (n v : Word) (value : s.ostack[n.toNat]? = some v) (room : s.params.ostackDepth ≠ some s.ostack.length) :
    Effect s (.dup n) ((s.advance 2).setOstack (v :: s.ostack))
  | swap {a b : Word} {rest : List Word} (ops : s.ostack = a :: b :: rest) :
    Effect s .swap ((s.advance 1).setOstack (b :: a :: rest))
  | binary {i : Instr} {f : Word → Word → Word} {a b : Word} {rest : List Word} (ops : s.ostack = a :: b :: rest)
    (form : binaryFn i = some f) :
    Effect s i ((s.advance 1).setOstack (f a b :: rest))
  | load {i : Instr} {n : Nat} {addr : Word} {rest : List Word} (ops : s.ostack = addr :: rest)
    (bounds : inBounds s addr n = true) (form : (i, n) ∈ [(Instr.read8, 1), (.read64, 8)]) :
    Effect s i ((s.advance 1).setOstack (BitVec.ofNat 64 (leValue (s.mem.readBytes addr.toNat n)) :: rest))
  | store {i : Instr} {n : Nat} {addr value : Word} {rest : List Word} (ops : s.ostack = addr :: value :: rest)
    (bounds : inBounds s addr n = true) (form : (i, n) ∈ [(Instr.write8, 1), (.write64, 8)]) :
    Effect s i (((s.advance 1).setOstack rest).setMem (s.mem.writeBytes addr.toNat (leBytes value n)))
  | printu {a : Word} {rest : List Word} (ops : s.ostack = a :: rest) :
    Effect s .printu (((s.advance 1).setOstack rest).emit (dec a ++ s.params.printuSuffix))
  | puts {size ptr : Word} {rest : List Word} (ops : s.ostack = size :: ptr :: rest)
    (bounds : inBounds s ptr size.toNat = true) :
    Effect s .puts (((s.advance 1).setOstack rest).emit (s.mem.readBytes ptr.toNat size.toNat))
  | call {addr : Word} {rest : List Word} (ops : s.ostack = addr :: rest)
    (room : s.params.cstackDepth ≠ some s.cstack.length) :
    Effect s .call ((((s.advance 1).setOstack rest).setCstack ((s.ip + 1) :: s.cstack)).setIp addr)
  | ret {v : Word} {rest : List Word} (ops : s.cstack = v :: rest) :
    Effect s .ret (((s.advance 1).setCstack rest).setIp v)
  | transfer {i : Instr} {target : Word → Word → Word} {v : Word} {rest : List Word} (ops : s.ostack = v :: rest)
    (form : i ∈ [Instr.jp, .jr]) (fn : targetFn i = some target) :
    Effect s i (((s.advance 1).setOstack rest).setIp (target (s.ip + 1) v))
  | transferIf {i : Instr} {target : Word → Word → Word} {v cond : Word} {rest : List Word}
    (ops : s.ostack = v :: cond :: rest) (form : i ∈ [Instr.jpc, .jrc]) (fn : targetFn i = some target) :
    Effect s i (if condTrue cond then ((s.advance 1).setOstack rest).setIp (target (s.ip + 1) v)
      else (s.advance 1).setOstack rest)
  | halt : Effect s .halt (s.advance 1).halt

/-- A load form run from its opcode word. -/
theorem load_effect {i : Instr} {n : Nat} {s t : State} (form : (i, n) ∈ [(Instr.read8, 1), (.read64, 8)])
    (h : load n (s.advance 1) = .ok t) : Effect s i t := by
  obtain ⟨addr, rest, ops, hb, _, rfl⟩ := load_eq_ok.1 h
  exact .load ops hb form

/-- A store form run from its opcode word. -/
theorem store_effect {i : Instr} {n : Nat} {s t : State} (form : (i, n) ∈ [(Instr.write8, 1), (.write64, 8)])
    (h : store n (s.advance 1) = .ok t) : Effect s i t := by
  obtain ⟨addr, value, rest, ops, hb, rfl⟩ := store_eq_ok.1 h
  exact .store ops hb form

/-- An arithmetic or comparison form run from its opcode word. -/
theorem binary_effect {i : Instr} {f : Word → Word → Word} {s t : State}
    (form : binaryFn i = some f) (h : binary f (s.advance 1) = .ok t) :
    Effect s i t := by
  obtain ⟨a, b, rest, ops, _, rfl⟩ := binary_eq_ok.1 h
  exact .binary ops form

/-- An unconditional transfer form run from its opcode word. -/
theorem transfer_effect {i : Instr} {target : Word → Word → Word} {s t : State} (form : i ∈ [Instr.jp, .jr])
    (fn : targetFn i = some target) (h : transfer target (s.advance 1) = .ok t) : Effect s i t := by
  obtain ⟨v, rest, ops, rfl⟩ := transfer_eq_ok.1 h
  exact .transfer ops form fn

/-- A conditional transfer form run from its opcode word. -/
theorem transferIf_effect {i : Instr} {target : Word → Word → Word} {s t : State} (form : i ∈ [Instr.jpc, .jrc])
    (fn : targetFn i = some target) (h : transferIf target (s.advance 1) = .ok t) : Effect s i t := by
  obtain ⟨v, cond, rest, ops, rfl⟩ := transferIf_eq_ok.1 h
  exact .transferIf ops form fn

/-- What `exec` can answer: a fault taken, or the instruction's own effect. -/
theorem exec_cases {i : Instr} {s t : State} (h : exec i s = .next t) :
    (∃ e, t = takeFault s e) ∨ Effect s i t := by
  have key : ∀ {r : Except Raise State}, finish s r = .next t → (r = .ok t → Effect s i t) →
      (∃ e, t = takeFault s e) ∨ Effect s i t := fun hf hr => by
    rcases finish_cases hf with ho | ⟨e, _, he⟩
    · exact .inr (hr ho)
    · exact .inl ⟨e, he⟩
  cases i with
  | push imm =>
    refine key h fun ho => ?_
    obtain ⟨hd, rfl⟩ := push_eq_ok.1 ho
    exact .push imm hd
  | dup n =>
    refine key h fun ho => ?_
    obtain ⟨v, hv, hp⟩ := bind_eq_ok.1 ho
    obtain ⟨hd, rfl⟩ := push_eq_ok.1 hp
    exact .dup n v (peek_eq_ok.1 hv) hd
  | swap =>
    refine key h fun ho => ?_
    obtain ⟨⟨a, b, s1⟩, h1, h2⟩ := bind_eq_ok.1 ho
    obtain ⟨rest, ops, rfl⟩ := pop2_eq_ok.1 h1
    obtain ⟨s2, h3, h4⟩ := bind_eq_ok.1 h2
    obtain ⟨_, rfl⟩ := push_eq_ok.1 h3
    obtain ⟨_, rfl⟩ := push_eq_ok.1 h4
    exact .swap ops
  | add => exact key h (binary_effect rfl)
  | sub => exact key h (binary_effect rfl)
  | multu => exact key h (binary_effect rfl)
  | gt => exact key h (binary_effect rfl)
  | lt => exact key h (binary_effect rfl)
  | eq => exact key h (binary_effect rfl)
  | ge => exact key h (binary_effect rfl)
  | le => exact key h (binary_effect rfl)
  | read8 => exact key h (load_effect (by simp))
  | read64 => exact key h (load_effect (by simp))
  | write8 => exact key h (store_effect (by simp))
  | write64 => exact key h (store_effect (by simp))
  | printu =>
    refine key h fun ho => ?_
    obtain ⟨⟨a, s1⟩, h1, h2⟩ := bind_eq_ok.1 ho
    obtain ⟨rest, ops, rfl⟩ := pop_eq_ok.1 h1
    cases h2
    exact .printu ops
  | puts =>
    refine key h fun ho => ?_
    obtain ⟨⟨size, ptr, s1⟩, h1, h2⟩ := bind_eq_ok.1 ho
    obtain ⟨rest, ops, rfl⟩ := pop2_eq_ok.1 h1
    obtain ⟨bs, h3, h4⟩ := bind_eq_ok.1 h2
    obtain ⟨hb, rfl⟩ := memBytes_eq_ok.1 h3
    cases h4
    exact .puts ops hb
  | call =>
    refine key h fun ho => ?_
    obtain ⟨⟨addr, s1⟩, h1, h2⟩ := bind_eq_ok.1 ho
    obtain ⟨rest, ops, rfl⟩ := pop_eq_ok.1 h1
    obtain ⟨s2, h3, h4⟩ := bind_eq_ok.1 h2
    obtain ⟨hd, rfl⟩ := cpush_eq_ok.1 h3
    cases h4
    exact .call ops hd
  | ret =>
    refine key h fun ho => ?_
    obtain ⟨⟨v, s1⟩, h1, h2⟩ := bind_eq_ok.1 ho
    obtain ⟨rest, ops, rfl⟩ := cpop_eq_ok.1 h1
    cases h2
    exact .ret ops
  | jp => exact key h (transfer_effect (by simp) rfl)
  | jpc => exact key h (transferIf_effect (by simp) rfl)
  | jr => exact key h (transfer_effect (by simp) rfl)
  | jrc => exact key h (transferIf_effect (by simp) rfl)
  | halt =>
    have h' : finish s (.ok (s.advance 1).halt) = .next t := h
    refine key h' fun ho => ?_
    cases ho
    exact .halt

/-- What a step of a running engine can answer: a fault taken, or the effect of the instruction it fetched. -/
theorem step_cases {s t : State} (hs : s.status = .running) (h : step s = .next t) :
    (∃ e, t = takeFault s e) ∨ ∃ i, fetchInstr s = .ok i ∧ Effect s i t := by
  unfold step at h
  rw [hs] at h
  cases hf : fetchInstr s with
  | error e =>
    rw [hf] at h
    exact .inl ⟨e, by simpa using h.symm⟩
  | ok i =>
    rw [hf] at h
    exact (exec_cases h).imp id fun he => ⟨i, rfl, he⟩

/-- An engine that is not running stays as it is. -/
theorem step_of_not_running {s : State} (hs : s.status ≠ .running) : step s = .next s := by
  unfold step
  cases h : s.status <;> simp_all

end Sys2Proof.Machine
end

