-- ==== Sys2Proof/Laws/PerInstr.lean ====
section
/-! SUPPORT. Facts about every instruction as syntax, one lemma per constructor. -/

namespace Sys2Proof.Laws.EncodingLength

/-- The length of an encoding (R51, R52): the words of the instruction, one or two, two exactly if its opcode has an
immediate. -/
def Statement (i : Instr) : Prop :=
  ∀ m : OpcodeMap, (encode m i).length = i.words ∧ (i.words = 2 ↔ i.opcode.hasImmediate = true) ∧
    (i.words = 1 ↔ i.opcode.hasImmediate = false)

theorem push (w : Word) : Statement (.push w) := fun _ => ⟨rfl, by simp [Instr.words, Instr.opcode, Opcode.hasImmediate]⟩
theorem dup (w : Word) : Statement (.dup w) := fun _ => ⟨rfl, by simp [Instr.words, Instr.opcode, Opcode.hasImmediate]⟩
theorem swap : Statement .swap := fun _ => ⟨rfl, by decide, by decide⟩
theorem add : Statement .add := fun _ => ⟨rfl, by decide, by decide⟩
theorem sub : Statement .sub := fun _ => ⟨rfl, by decide, by decide⟩
theorem multu : Statement .multu := fun _ => ⟨rfl, by decide, by decide⟩
theorem gt : Statement .gt := fun _ => ⟨rfl, by decide, by decide⟩
theorem lt : Statement .lt := fun _ => ⟨rfl, by decide, by decide⟩
theorem eq : Statement .eq := fun _ => ⟨rfl, by decide, by decide⟩
theorem ge : Statement .ge := fun _ => ⟨rfl, by decide, by decide⟩
theorem le : Statement .le := fun _ => ⟨rfl, by decide, by decide⟩
theorem read8 : Statement .read8 := fun _ => ⟨rfl, by decide, by decide⟩
theorem read64 : Statement .read64 := fun _ => ⟨rfl, by decide, by decide⟩
theorem write8 : Statement .write8 := fun _ => ⟨rfl, by decide, by decide⟩
theorem write64 : Statement .write64 := fun _ => ⟨rfl, by decide, by decide⟩
theorem printu : Statement .printu := fun _ => ⟨rfl, by decide, by decide⟩
theorem puts : Statement .puts := fun _ => ⟨rfl, by decide, by decide⟩
theorem call : Statement .call := fun _ => ⟨rfl, by decide, by decide⟩
theorem ret : Statement .ret := fun _ => ⟨rfl, by decide, by decide⟩
theorem jp : Statement .jp := fun _ => ⟨rfl, by decide, by decide⟩
theorem jpc : Statement .jpc := fun _ => ⟨rfl, by decide, by decide⟩
theorem jr : Statement .jr := fun _ => ⟨rfl, by decide, by decide⟩
theorem jrc : Statement .jrc := fun _ => ⟨rfl, by decide, by decide⟩
theorem halt : Statement .halt := fun _ => ⟨rfl, by decide, by decide⟩

end Sys2Proof.Laws.EncodingLength
end

