-- ==== Sys2Proof/Laws/Safety.lean ====
section
/-! SUPPORT. Small lemmas about the vocabulary of Safety.lean. -/

namespace Sys2Proof.Machine

/-- A stack fits exactly if it does not exceed a finite depth. -/
theorem fits_iff {depth : Option Nat} {n : Nat} : fits depth n = true ↔ ∀ d, depth = some d → n ≤ d := by
  cases depth <;> simp [fits]

/-- Both stacks fit exactly if neither exceeds a finite depth. -/
theorem State.stacksFit_iff {s : State} :
    s.stacksFit = true ↔ (∀ d, s.params.ostackDepth = some d → s.ostack.length ≤ d) ∧
      (∀ d, s.params.cstackDepth = some d → s.cstack.length ≤ d) := by
  simp [State.stacksFit, fits_iff, State.osp, State.csp]

/-- Admissible parameters have an injective opcode map. -/
theorem Inv.opcodes {s : State} (h : Inv s) : s.params.opcodes.wf = true := by
  have := h.params
  simp only [Params.wf, Bool.and_eq_true] at this
  exact this.1

/-- Admissible parameters keep the memory buffer inside the 64-bit addresses. -/
theorem Inv.memCapacity {s : State} (h : Inv s) : s.params.memCapacity < 2 ^ 64 := by
  have := h.params
  simp only [Params.wf, Bool.and_eq_true, decide_eq_true_eq] at this
  exact this.2

/-- The program of a state of the invariant is shorter than the range of `ip`. -/
theorem Inv.progLength {s : State} (h : Inv s) : s.prog.length < 2 ^ 64 := of_decide_eq_true h.prog

end Sys2Proof.Machine
end

