-- ==== Sys2Proof/Tests/Slice0.lean ====
section
/-! SUPPORT. The model's own tests: words written out from the tables of R51 and R53, ill-formed terms that the checks
refuse, one step of each instruction from the vectors of spec/95_test_vectors.md (V<n>), and a witness for the hypotheses
of each statement of `Certificates/Slice0/Obligations.lean`. Stacks are written top first, so a vector's stack is reversed
here. -/

namespace Sys2Proof.Tests

open Sys2Proof.Machine

/-! ## Decoding: a word of every constructor (R51, R53) -/

theorem test_decode_push : decode OpcodeMap.dense [0x0000000000000000, 0x1122334455667788, 0x17] =
    .ok (.push 0x1122334455667788, [0x17]) := by rfl
theorem test_decode_dup : decode OpcodeMap.dense [0x0000000000000001, 0x0000000000000002] = .ok (.dup 2, []) := by rfl
theorem test_decode_swap : decode OpcodeMap.dense [0x0000000000000002] = .ok (.swap, []) := by rfl
theorem test_decode_add : decode OpcodeMap.dense [0x0000000000000003] = .ok (.add, []) := by rfl
theorem test_decode_sub : decode OpcodeMap.dense [0x0000000000000004] = .ok (.sub, []) := by rfl
theorem test_decode_multu : decode OpcodeMap.dense [0x0000000000000005] = .ok (.multu, []) := by rfl
theorem test_decode_gt : decode OpcodeMap.dense [0x0000000000000006] = .ok (.gt, []) := by rfl
theorem test_decode_lt : decode OpcodeMap.dense [0x0000000000000007] = .ok (.lt, []) := by rfl
theorem test_decode_eq : decode OpcodeMap.dense [0x0000000000000008] = .ok (.eq, []) := by rfl
theorem test_decode_ge : decode OpcodeMap.dense [0x0000000000000009] = .ok (.ge, []) := by rfl
theorem test_decode_le : decode OpcodeMap.dense [0x000000000000000A] = .ok (.le, []) := by rfl
theorem test_decode_read8 : decode OpcodeMap.dense [0x000000000000000B] = .ok (.read8, []) := by rfl
theorem test_decode_read64 : decode OpcodeMap.dense [0x000000000000000C] = .ok (.read64, []) := by rfl
theorem test_decode_write8 : decode OpcodeMap.dense [0x000000000000000D] = .ok (.write8, []) := by rfl
theorem test_decode_write64 : decode OpcodeMap.dense [0x000000000000000E] = .ok (.write64, []) := by rfl
theorem test_decode_printu : decode OpcodeMap.dense [0x000000000000000F] = .ok (.printu, []) := by rfl
theorem test_decode_puts : decode OpcodeMap.dense [0x0000000000000010] = .ok (.puts, []) := by rfl
theorem test_decode_call : decode OpcodeMap.dense [0x0000000000000011] = .ok (.call, []) := by rfl
theorem test_decode_ret : decode OpcodeMap.dense [0x0000000000000012] = .ok (.ret, []) := by rfl
theorem test_decode_jp : decode OpcodeMap.dense [0x0000000000000013] = .ok (.jp, []) := by rfl
theorem test_decode_jpc : decode OpcodeMap.dense [0x0000000000000014] = .ok (.jpc, []) := by rfl
theorem test_decode_jr : decode OpcodeMap.dense [0x0000000000000015] = .ok (.jr, []) := by rfl
theorem test_decode_jrc : decode OpcodeMap.dense [0x0000000000000016] = .ok (.jrc, []) := by rfl
theorem test_decode_halt : decode OpcodeMap.dense [0x0000000000000017] = .ok (.halt, []) := by rfl

/-- V141, V143: the first value past the map, and a word whose low half is that of `add`. -/
theorem test_decode_illegal : decode OpcodeMap.dense [24] = .error (.illegalOpcode 24) ∧
    decode OpcodeMap.dense [0x0000000100000003] = .error (.illegalOpcode 0x0000000100000003) := by exact ⟨rfl, rfl⟩
/-- R52: a `push` with no second word, and no word at all. -/
theorem test_decode_truncated : decode OpcodeMap.dense [0] = .error .noImmediateWord ∧
    decode OpcodeMap.dense [] = .error .noOpcodeWord := by exact ⟨rfl, rfl⟩

/-- R51: word 1 is bits 64 to 127 of the table's numbering. -/
theorem test_table_word : decodeTableWord 128 (5 * 2 ^ 64) = some (.push 5) ∧
    decodeTableWord 64 3 = some .add ∧ decodeTableWord 64 24 = none := by decide

/-! ## WellFormed: what the checks refuse -/

theorem test_wf_dense : OpcodeMap.dense.wf = true := by decide
/-- R5: a map that gives two opcodes one value is not injective. -/
theorem test_wf_duplicate_refused : { OpcodeMap.dense with halt := 0 }.wf = false := by decide
/-- D5, D27: a capacity of `2^64` is one too many. -/
theorem test_wf_capacity_refused : { Params.standard with memCapacity := 2 ^ 64 }.wf = false := by decide
theorem test_wf_capacity_greatest : { Params.standard with memCapacity := 2 ^ 64 - 1 }.wf = true := by decide
/-- D27: a program of `2^64` words is too long. -/
theorem test_wf_program_length (p : List Word) (h : p.length = 2 ^ 64) : programWf p = false := by
  unfold programWf; rw [h]; decide
theorem test_wf_program_refused : programWf (List.replicate (2 ^ 64) 0) = false :=
  test_wf_program_length _ (@List.length_replicate Word (2 ^ 64) 0)
theorem test_wf_program : programWf [0, 1, 23] = true := by decide

/-! ## One step of each instruction -/

/-- A running engine at the default parameters, `ip` at `k`. -/
def engine (prog : List Word) (k : Word) (st : List Word) : State :=
  { State.init Params.standard prog with ip := k, ostack := st }

/-- The next state of an outcome, if it is one. -/
def after : Host.Outcome State Fault Refusal → Option State
  | .next t => some t
  | .fault _ => none
  | .refused _ => none

theorem next_of_after {o : Host.Outcome State Fault Refusal} {t : State} (h : after o = some t) : o = .next t := by
  cases o with
  | next s => cases h; rfl
  | fault r => cases h
  | refused r => cases h

/-- `ip` and the operand stack after an instruction that ran. -/
def ran (i : Instr) (s : State) : Option (Word × List Word) :=
  (after (exec i s)).bind fun t => if t.status = .running then some (t.ip, t.ostack) else none

/-- The fault record and the operand stack after a state that faulted. -/
def record (o : Host.Outcome State Fault Refusal) : Option (Nat × Word × Word × List Word) :=
  (after o).bind fun t =>
    if t.status = .faulted ∧ t.ip = t.faultPc then some (t.cause.toNat, t.faultPc, t.faultInfo, t.ostack) else none

/-- Bytes at consecutive addresses from `a` on. -/
def bytesAt (m : Memory) (a n : Nat) : List Byte := m.readBytes a n

theorem test_push : ran (.push 0xFFFFFFFFFFFFFFFF) (engine [] 0 [9]) = some (2, [0xFFFFFFFFFFFFFFFF, 9]) := by decide -- V2
theorem test_push_no_immediate : record (step (engine [23, 0] 1 [])) = some (1, 1, 2, []) := by decide -- V4
theorem test_dup : ran (.dup 1) (engine [] 0 [7, 5]) = some (2, [5, 7, 5]) := by decide -- V6
theorem test_dup_huge : record (exec (.dup 0xFFFFFFFFFFFFFFFF) (engine [] 0 [3, 2, 1])) = some (3, 0, 0, [3, 2, 1]) := by
  decide -- V9
theorem test_swap : ran .swap (engine [] 0 [3, 2, 1]) = some (1, [2, 3, 1]) := by decide -- V11
theorem test_swap_one : record (exec .swap (engine [] 6 [4])) = some (3, 6, 0, [4]) := by decide -- V12
theorem test_add : ran .add (engine [] 0 [3, 2, 1]) = some (1, [5, 1]) := by decide -- V24
theorem test_add_wraps : ran .add (engine [] 0 [1, 18446744073709551615]) = some (1, [0]) := by decide -- V21
theorem test_sub_wraps : ran .sub (engine [] 0 [1, 0]) = some (1, [18446744073709551615]) := by decide -- V27
theorem test_sub : ran .sub (engine [] 0 [3, 10]) = some (1, [7]) := by decide -- V28
theorem test_multu_wraps : ran .multu (engine [] 0 [5000000000, 5000000000]) = some (1, [6553255926290448384]) := by
  decide -- V38
theorem test_multu : ran .multu (engine [] 0 [16, 0x0123456789ABCDEF]) = some (1, [0x123456789ABCDEF0]) := by decide -- V39
theorem test_gt : ran .gt (engine [] 0 [5, 3]) = some (1, [1]) := by decide -- V50
theorem test_gt_unsigned : ran .gt (engine [] 0 [9223372036854775807, 9223372036854775808]) = some (1, [0]) := by
  decide -- V55
theorem test_lt : ran .lt (engine [] 0 [3, 5]) = some (1, [1]) := by decide -- V51
theorem test_lt_unsigned : ran .lt (engine [] 0 [9223372036854775807, 9223372036854775808]) = some (1, [1]) := by
  decide -- V55
theorem test_eq : ran .eq (engine [] 0 [7, 7]) = some (1, [1]) := by decide -- V52
theorem test_eq_not : ran .eq (engine [] 0 [5, 3]) = some (1, [0]) := by decide -- V50
theorem test_ge : ran .ge (engine [] 0 [18446744073709551615, 0]) = some (1, [1]) := by decide -- V53
theorem test_ge_equal : ran .ge (engine [] 0 [0, 0]) = some (1, [1]) := by decide -- V56
theorem test_le : ran .le (engine [] 0 [0, 18446744073709551615]) = some (1, [1]) := by decide -- V54
theorem test_le_not : ran .le (engine [] 0 [5, 3]) = some (1, [0]) := by decide -- V50
theorem test_read8 : ran .read8 { engine [] 0 [16] with mem := [(16, 0x9C)] } = some (1, [156]) := by decide -- V72
theorem test_read8_oob : record (exec .read8 (engine [] 0 [65536])) = some (5, 0, 65536, [65536]) := by decide -- V74

/-- `M[8..15] = 01 02 03 04 05 06 07 08`. -/
def eightBytes : Memory := [(8, 1), (9, 2), (10, 3), (11, 4), (12, 5), (13, 6), (14, 7), (15, 8)]

theorem test_read64 : ran .read64 { engine [] 0 [9] with mem := eightBytes } = some (1, [0x0008070605040302]) := by
  decide -- V77
theorem test_read64_oob : record (exec .read64 (engine [] 0 [65529])) = some (5, 0, 65529, [65529]) := by decide -- V79
theorem test_write8 : (after (exec .write8 (engine [] 0 [3, 511]))).map (fun t => (t.mem, t.ostack)) =
    some ([(3, 0xFF)], []) := by decide -- V61
theorem test_write8_underflow : record (exec .write8 (engine [] 0 [65536])) = some (3, 0, 0, [65536]) := by decide -- V65
theorem test_write64 : (after (exec .write64 (engine [] 0 [0, 0x1122334455667788]))).map (fun t => bytesAt t.mem 0 9) =
    some [0x88, 0x77, 0x66, 0x55, 0x44, 0x33, 0x22, 0x11, 0x00] := by decide -- V66
theorem test_write64_oob : record (exec .write64 (engine [] 0 [65529, 7])) = some (5, 0, 65529, [65529, 7]) := by
  decide -- V68
theorem test_printu : (after (exec .printu (engine [] 0 [1000, 1]))).map (fun t => (t.out, t.ostack)) =
    some ([0x31, 0x30, 0x30, 0x30], [1]) := by decide -- V93
/-- V90 with `PRINTU_SUFFIX` a line feed. -/
theorem test_printu_suffix :
    (after (exec .printu { engine [] 0 [0] with params := { Params.standard with printuSuffix := [0x0A] } })).map
      (fun t => t.out) = some [0x30, 0x0A] := by decide

/-- `M[0..2] = 48 69 0A`. -/
def hi : Memory := [(0, 0x48), (1, 0x69), (2, 0x0A)]

theorem test_puts : (after (exec .puts { engine [] 0 [4, 0] with mem := hi })).map (fun t => t.out) =
    some [0x48, 0x69, 0x0A, 0x00] := by decide -- V97
theorem test_puts_oob : record (exec .puts (engine [] 0 [7, 65530])) = some (5, 0, 65530, [7, 65530]) := by decide -- V101
theorem test_call : (after (exec .call (engine [] 4 [7, 21]))).map (fun t => (t.ip, t.ostack, t.cstack)) =
    some (7, [21], [5]) := by decide -- V110
theorem test_call_empty : record (exec .call (engine [] 0 [])) = some (3, 0, 0, []) := by decide -- V112
theorem test_ret : (after (exec .ret { engine [] 10 [42] with cstack := [5] })).map (fun t => (t.ip, t.ostack, t.cstack)) =
    some (5, [42], []) := by decide -- V113
theorem test_ret_empty : record (exec .ret (engine [] 0 [2, 1])) = some (4, 0, 0, [2, 1]) := by decide -- V114
theorem test_jp : ran .jp (engine [] 2 [9]) = some (9, []) := by decide -- V115
theorem test_jp_past_the_end : ran .jp (engine [0, 100, 19, 23] 2 [100]) = some (100, []) := by decide -- V116
theorem test_jpc_taken : ran .jpc (engine [] 4 [6, 9223372036854775808]) = some (6, []) := by decide -- V120
theorem test_jpc_not_taken : ran .jpc (engine [] 4 [1000, 0]) = some (5, []) := by decide -- V121
theorem test_jr_back : ran .jr (engine [] 10 [18446744073709551611]) = some (6, []) := by decide -- V125
theorem test_jr_wraps : ran .jr (engine [] 2 [18446744073709551606]) = some (18446744073709551609, []) := by decide -- V127
theorem test_jrc_taken : ran .jrc (engine [] 7 [18446744073709551613, 5]) = some (5, []) := by decide -- V131
theorem test_jrc_not_taken : ran .jrc (engine [] 7 [2, 0]) = some (8, []) := by decide -- V130
theorem test_halt : (after (exec .halt { engine [] 6 [1] with cstack := [3] })).map
    (fun t => (t.status, t.ip, t.ostack, t.cstack)) = some (.halted, 7, [1], [3]) := by decide -- V140

/-! ## Fetch, reset, the host's placing of an instruction -/

theorem test_step_illegal : record (step (engine [0x0000000100000003] 0 [])) = some (2, 0, 0x0000000100000003, []) := by
  decide -- V143
/-- V144: the model's reset state holds the empty program (log 1). -/
theorem test_step_at_reset : record (step State.reset) = some (1, 0, 0, []) := by decide
theorem test_step_halted : after (step { engine [0, 1] 0 [] with status := .halted }) =
    some { engine [0, 1] 0 [] with status := .halted } := by decide -- V146
theorem test_fetch_word : ran (.push 5) (State.reset.withFetchWord 128 (5 * 2 ^ 64)) = some (2, [5]) ∧
    (after (step (State.reset.withFetchWord 128 (5 * 2 ^ 64)))).map (fun t => (t.ip, t.ostack)) = some (2, [5]) := by
  decide

/-! ## The assembler -/

/-- The worked expansion of R74. -/
theorem test_assemble : (assemble OpcodeMap.dense
    ("push 1\njpc L\nhalt\nL:\npush 2 ; two\n  printu\n\nhalt".toList)).toOption =
    some [0, 1, 0, 6, 20, 23, 0, 2, 15, 23] := by decide
/-- Log 19: a duplicate label on line 2, an unknown mnemonic on line 3. -/
theorem test_assemble_error_order : (match assemble OpcodeMap.dense "a:\na:\npop".toList with
    | .error e => some e
    | .ok _ => none) = some ⟨.unknownOpcode, ⟨3, 1⟩⟩ := by decide
/-- R64: the numerals that are one operand, the octal reading, and one magnitude too many. -/
theorem test_numerals : numeral ['-', '1'] = some 0xFFFFFFFFFFFFFFFF ∧ numeral ['0', 'x', 'f', 'F'] = some 255 ∧
    numeral ['0', '1', '7'] = some 15 ∧ numeral ['0'] = some 0 ∧ numeral ['0', '8'] = none ∧
    numeral "18446744073709551615".toList = some 0xFFFFFFFFFFFFFFFF ∧ numeral "18446744073709551616".toList = none := by
  decide

/-! ## Witnesses: states and operands that meet the hypotheses of the statements

Each theorem is named after its statement. A statement of several clauses has a witness for each, at the boundary of its
range where it has one. A statement without hypotheses has none. -/

/-- An engine with finite stacks of depth 2 and 1, `ip` at `k`. -/
def tight (prog : List Word) (k : Word) (st cst : List Word) : State :=
  { engine prog k st with
    params := { Params.standard with ostackDepth := some 2, cstackDepth := some 1 }, cstack := cst }

/-- A check of the invariant on a concrete state. -/
def invCheck (s : State) : Bool :=
  s.params.wf && programWf s.prog && s.mem.wf && s.mem.within s.params.memCapacity && s.stacksFit &&
    s.cstack.all (fun c => decide (1 ≤ c.toNat ∧ c.toNat ≤ s.prog.length)) &&
    (decide (s.status ≠ .faulted) || (decide (s.cause ≠ 0) && decide (s.ip = s.faultPc)))

theorem inv_of_check {s : State} (h : invCheck s = true) : Inv s := by
  simp only [invCheck, Bool.and_eq_true, List.all_eq_true, decide_eq_true_eq, Bool.or_eq_true] at h
  obtain ⟨⟨⟨⟨⟨⟨h1, h2⟩, h3⟩, h4⟩, h5⟩, h6⟩, h7⟩ := h
  exact ⟨h1, h2, h3, h4, h5, h6, fun hf => h7.resolve_left (fun hn => hn hf)⟩

theorem witness_PushPushesItsImmediate :
    (engine [] 0 [9]).params.ostackDepth ≠ some (engine [] 0 [9]).ostack.length ∧
    (tight [] 0 [2, 1] []).params.ostackDepth = some (tight [] 0 [2, 1] []).ostack.length := by decide
theorem witness_PushPushesItsImmediate_step : Inv (engine [0, 5] 0 []) ∧ (engine [0, 5] 0 []).status = .running ∧
    (engine [0, 5] 0 []).prog[0]? = some (engine [0, 5] 0 []).params.opcodes.push ∧
    (engine [0, 5] 0 []).prog[1]? = some 5 := ⟨inv_of_check (by decide), rfl, rfl, rfl⟩
theorem witness_PushPushesItsImmediate_end : Inv (engine [23, 0] 1 []) ∧ (engine [23, 0] 1 []).status = .running ∧
    (engine [23, 0] 1 []).prog[1]? = some (engine [23, 0] 1 []).params.opcodes.push ∧
    (engine [23, 0] 1 []).prog.length = 1 + 1 := ⟨inv_of_check (by decide), rfl, rfl, rfl⟩

/-- `n` at the greatest offset admitted, at the least one refused, and with the stack full. -/
theorem witness_DupCopiesTheValueBelowTop :
    ((engine [] 0 [7, 5]).ostack[(1 : Word).toNat]? = some 5 ∧
      (engine [] 0 [7, 5]).params.ostackDepth ≠ some (engine [] 0 [7, 5]).ostack.length) ∧
    (engine [] 0 [7, 5]).ostack.length ≤ (2 : Word).toNat ∧
    ((1 : Word).toNat < (tight [] 0 [7, 5] []).ostack.length ∧
      (tight [] 0 [7, 5] []).params.ostackDepth = some (tight [] 0 [7, 5] []).ostack.length) := by decide
theorem witness_DupCopiesTheValueBelowTop_step : Inv (engine [1, 0] 0 [9]) ∧ (engine [1, 0] 0 [9]).status = .running ∧
    (engine [1, 0] 0 [9]).prog[0]? = some (engine [1, 0] 0 [9]).params.opcodes.dup ∧
    (engine [1, 0] 0 [9]).prog[1]? = some 0 := ⟨inv_of_check (by decide), rfl, rfl, rfl⟩
theorem witness_DupCopiesTheValueBelowTop_end : Inv (engine [1] 0 [9]) ∧ (engine [1] 0 [9]).status = .running ∧
    (engine [1] 0 [9]).prog[0]? = some (engine [1] 0 [9]).params.opcodes.dup ∧
    (engine [1] 0 [9]).prog.length = 0 + 1 := ⟨inv_of_check (by decide), rfl, rfl, rfl⟩

/-- Two operands, on unbounded and on full finite stacks; and one operand. -/
theorem witness_SwapExchangesTheTopTwo :
    ((engine [] 0 [7, 5, 1]).stacksFit = true ∧ (engine [] 0 [7, 5, 1]).ostack = 7 :: 5 :: [1]) ∧
    ((tight [] 0 [7, 5] []).stacksFit = true ∧ (tight [] 0 [7, 5] []).ostack = 7 :: 5 :: []) ∧
    (engine [] 0 [4]).ostack.length < 2 := by decide
theorem witness_ArithmeticPushesBOpA :
    ((tight [] 0 [7, 5] []).stacksFit = true ∧ (tight [] 0 [7, 5] []).ostack = 7 :: 5 :: []) ∧
    ((Instr.sub = .add ∨ Instr.sub = .sub ∨ Instr.sub = .multu) ∧ (engine [] 0 [4]).ostack.length < 2) := by decide
theorem witness_ComparisonsPushTheVerdict :
    ((tight [] 0 [7, 5] []).stacksFit = true ∧ (tight [] 0 [7, 5] []).ostack = 7 :: 5 :: []) ∧
    ((Instr.le = .gt ∨ Instr.le = .lt ∨ Instr.le = .eq ∨ Instr.le = .ge ∨ Instr.le = .le) ∧
      (engine [] 0 [4]).ostack.length < 2) := by decide

/-- The last address admitted and the first refused, for one byte and for eight; and an empty stack. -/
theorem witness_LoadsPushTheBytesAtTheAddress :
    (∀ a ∈ [(65535 : Word), 65536, 65528, 65529, 0xFFFFFFFFFFFFFFFF],
      (engine [] 0 [a]).stacksFit = true ∧ (engine [] 0 [a]).ostack = a :: []) ∧
    (65535 : Word).toNat + 1 ≤ (engine [] 0 [65535]).params.memCapacity ∧
    (engine [] 0 [65536]).params.memCapacity < (65536 : Word).toNat + 1 ∧
    (65528 : Word).toNat + 8 ≤ (engine [] 0 [65528]).params.memCapacity ∧
    (engine [] 0 [65529]).params.memCapacity < (65529 : Word).toNat + 8 ∧
    (engine [] 0 [0xFFFFFFFFFFFFFFFF]).params.memCapacity < (0xFFFFFFFFFFFFFFFF : Word).toNat + 8 ∧
    (engine [] 0 []).ostack = [] := by
  simp [engine, State.init, Params.standard, State.stacksFit, fits]
theorem witness_StoresWriteTheBytesAtTheAddress :
    (∀ a ∈ [(65535 : Word), 65536, 65528, 65529], ({ engine [] 0 [a, 7] with mem := eightBytes }).mem.wf = true ∧
      ({ engine [] 0 [a, 7] with mem := eightBytes }).ostack = a :: 7 :: []) ∧
    (65535 : Word).toNat + 1 ≤ (engine [] 0 [65535, 7]).params.memCapacity ∧
    (engine [] 0 [65536, 7]).params.memCapacity < (65536 : Word).toNat + 1 ∧
    (65528 : Word).toNat + 8 ≤ (engine [] 0 [65528, 7]).params.memCapacity ∧
    (engine [] 0 [65529, 7]).params.memCapacity < (65529 : Word).toNat + 8 ∧
    (engine [] 0 [65536]).ostack.length < 2 := by
  simp [engine, State.init, Params.standard, eightBytes, Memory.wf, Memory.blankByte]

theorem witness_PrintuEmitsTheDecimalNumeral :
    (engine [] 0 [0, 3]).ostack = 0 :: [3] ∧ (engine [] 0 [1000]).ostack = 1000 :: [] ∧ (engine [] 0 []).ostack = [] := by
  decide
/-- The empty run at the end of memory and the first refused one, a run that ends at the end, and one past it. -/
theorem witness_PutsEmitsTheRunOfBytes :
    (∀ sp ∈ [((0 : Word), (65536 : Word)), (0, 65537), (6, 65530), (7, 65530)],
      (engine [] 0 [sp.1, sp.2]).ostack = sp.1 :: sp.2 :: []) ∧
    (65536 : Word).toNat + (0 : Word).toNat ≤ Params.standard.memCapacity ∧
    Params.standard.memCapacity < (65537 : Word).toNat + (0 : Word).toNat ∧
    (65530 : Word).toNat + (6 : Word).toNat ≤ Params.standard.memCapacity ∧
    Params.standard.memCapacity < (65530 : Word).toNat + (7 : Word).toNat ∧
    (engine [] 0 [3]).ostack.length < 2 := by
  simp [engine, State.init, Params.standard]

/-- V111: `call` as the last word of a program of three, to the address `LEN`. -/
theorem witness_CallSavesTheReturnAddress :
    (engine [0, 50, 17] 2 [3]).ostack = 3 :: [] ∧
    (engine [0, 50, 17] 2 [3]).params.cstackDepth ≠ some (engine [0, 50, 17] 2 [3]).cstack.length ∧
    (engine [0, 50, 17] 2 [3]).status = .running ∧
    (engine [0, 50, 17] 2 [3]).prog.length ≤ (3 : Word).toNat ∧
    exec .call (engine [0, 50, 17] 2 [3]) = .next { engine [0, 50, 17] 3 [] with cstack := [3] } :=
  ⟨rfl, by decide, rfl, by decide, next_of_after (by decide)⟩
theorem witness_CallSavesTheReturnAddress_full :
    (tight [] 0 [9] [3]).ostack = 9 :: [] ∧
    (tight [] 0 [9] [3]).params.cstackDepth = some (tight [] 0 [9] [3]).cstack.length ∧
    (engine [] 0 []).ostack = [] := by decide
/-- A return address inside the program, none, and the one that is `LEN`. -/
theorem witness_RetPopsTheCallStackIntoIp :
    (tight [18, 23] 0 [9] [1]).cstack = 1 :: [] ∧ (tight [18, 23] 0 [9] []).cstack = [] := by decide
theorem witness_RetPopsTheCallStackIntoIp_end : Inv (tight [18, 17] 0 [9] [2]) ∧
    (tight [18, 17] 0 [9] [2]).cstack = 2 :: [] ∧ (tight [18, 17] 0 [9] [2]).prog.length ≤ (2 : Word).toNat :=
  ⟨inv_of_check (by decide), rfl, by decide⟩
/-- Both conditions, one operand, none. -/
theorem witness_AbsoluteJumpsSetIp :
    (engine [] 4 [6, 9223372036854775808]).ostack = 6 :: 9223372036854775808 :: [] ∧ (9223372036854775808 : Word) ≠ 0 ∧
    (engine [] 4 [6, 0]).ostack = 6 :: 0 :: [] ∧ (engine [] 4 [6]).ostack = 6 :: [] ∧
    (engine [] 4 []).ostack = [] ∧ (engine [] 4 [6]).ostack.length < 2 := by decide
theorem witness_RelativeJumpsAddToIp :
    (engine [] 7 [0xFFFFFFFFFFFFFFFD, 5]).ostack = 0xFFFFFFFFFFFFFFFD :: 5 :: [] ∧ (5 : Word) ≠ 0 ∧
    (engine [] 7 [2, 0]).ostack = 2 :: 0 :: [] ∧ (engine [] 7 [2]).ostack = 2 :: [] ∧
    (engine [] 7 []).ostack = [] ∧ (engine [] 7 [2]).ostack.length < 2 := by decide
theorem witness_HaltEndsTheRun : exec .halt (engine [23] 0 [4]) = .next { engine [23] 1 [4] with status := .halted } :=
  next_of_after (by decide)

/-- A two-word instruction at the end of its program. -/
theorem witness_StepRunsTheDecodedInstruction : (engine [23, 0, 5] 1 []).status = .running ∧
    programWf (engine [23, 0, 5] 1 []).prog = true ∧
    decode (engine [23, 0, 5] 1 []).params.opcodes ((engine [23, 0, 5] 1 []).prog.drop 1) = .ok (.push 5, []) :=
  ⟨rfl, by decide, rfl⟩
/-- `ip = LEN`, and the immediate that is missing at the end. -/
theorem witness_FetchAndDecodeFaults : (engine [3] 1 []).status = .running ∧ (engine [3] 1 []).prog.length ≤ 1 ∧
    Inv (engine [1] 0 []) ∧ (engine [1] 0 []).status = .running ∧ (Opcode.dup = .push ∨ Opcode.dup = .dup) ∧
    (engine [1] 0 []).prog[0]? = some ((engine [1] 0 []).params.opcodes.value .dup) ∧
    (engine [1] 0 []).prog.length = 0 + 1 :=
  ⟨rfl, by decide, inv_of_check (by decide), rfl, by decide, rfl, rfl⟩
/-- The least word the default map does not contain. -/
theorem witness_FetchAndDecodeFaults_illegal : (engine [24] 0 []).status = .running ∧
    (engine [24] 0 []).prog[0]? = some 24 ∧ ∀ op, (engine [24] 0 []).params.opcodes.value op ≠ 24 :=
  ⟨rfl, rfl, fun op => by cases op <;> decide⟩

/-- The map with the values of `push` and `halt` exchanged, which is injective too. -/
def otherMap : OpcodeMap := { OpcodeMap.dense with push := 23, halt := 0 }

theorem witness_DecoderComparesTheWholeWord : OpcodeMap.dense.wf = true ∧ otherMap.wf = true := by decide
theorem witness_DecodeAndEncodeAgree : otherMap.wf = true ∧
    decode otherMap [23, 5, 0] = .ok (.push 5, [0]) ∧ [23, 5, 0] = encode otherMap (.push 5) ++ [0] :=
  ⟨by decide, rfl, rfl⟩
theorem witness_ProgramsReadBack : otherMap.wf = true := by decide

/-- One state for each fault, and one that meets none. -/
theorem witness_StepTakesTheFirstFault :
    (∀ s ∈ [(engine [] 0 [], (⟨.fetchOob, 0⟩ : Raise)), (engine [24] 0 [], ⟨.illegalOpcode, 24⟩),
        (engine [1] 0 [], ⟨.fetchOob, 1⟩), (engine [14] 0 [65536], ⟨.ostackUnderflow, 0⟩),
        (engine [18] 0 [], ⟨.cstackUnderflow, 0⟩), (engine [14] 0 [65529, 7], ⟨.memOob, 65529⟩),
        (tight [0, 3] 0 [2, 1] [], ⟨.ostackOverflow, 0⟩), (tight [17] 0 [9] [1], ⟨.cstackOverflow, 0⟩)],
      Inv s.1 ∧ s.1.status = .running ∧ stepRaise s.1 = some s.2) ∧
    (Inv (engine [14] 0 [65528, 7]) ∧ (engine [14] 0 [65528, 7]).status = .running ∧
      stepRaise (engine [14] 0 [65528, 7]) = none) := by
  refine ⟨fun s hs => ?_, inv_of_check (by decide), rfl, by decide⟩
  fin_cases hs <;> exact ⟨inv_of_check (by decide), rfl, by decide⟩
theorem witness_ExecTakesTheFirstFault :
    (engine [] 0 [65536]).stacksFit = true ∧ firstRaise .write64 (engine [] 0 [65536]) = some ⟨.ostackUnderflow, 0⟩ ∧
    (tight [] 0 [7, 5] []).stacksFit = true ∧ firstRaise .swap (tight [] 0 [7, 5] []) = none := by decide
theorem witness_FaultsStayInTheirRow : Inv (engine [16] 0 [7, 65530]) ∧ (engine [16] 0 [7, 65530]).status = .running ∧
    (engine [16] 0 [7, 65530]).prog[0]? = some ((engine [16] 0 [7, 65530]).params.opcodes.value .puts) ∧
    step (engine [16] 0 [7, 65530]) = .next (takeFault (engine [16] 0 [7, 65530]) ⟨.memOob, 65530⟩) ∧
    (takeFault (engine [16] 0 [7, 65530]) ⟨.memOob, 65530⟩).status = .faulted :=
  ⟨inv_of_check (by decide), rfl, rfl, next_of_after (by decide), rfl⟩

theorem witness_InvariantHoldsAtReset : Params.standard.wf = true ∧ programWf [0, 1, 23] = true := by decide

/-- `push 9; printu; halt` in memory, with a return address and stored bytes, and its next three states. -/
def busy : State := { engine [0, 9, 15, 23] 0 [4] with cstack := [3], mem := eightBytes }
def busy1 : State := { busy with ip := 2, ostack := [9, 4] }
def busy2 : State := { busy with ip := 3, out := [0x39] }
def busy3 : State := { busy with ip := 4, out := [0x39], status := .halted }

theorem busy_step : step busy = .next busy1 ∧ step busy1 = .next busy2 ∧ step busy2 = .next busy3 :=
  ⟨next_of_after (by decide), next_of_after (by decide), next_of_after (by decide)⟩
theorem busy_reaches : Reaches busy busy3 :=
  ((Reaches.refl.tail busy_step.1).tail busy_step.2.1).tail busy_step.2.2
theorem busy_runs : RunsTo busy busy3 := ⟨3, next_of_after (by decide), by decide⟩

theorem witness_StepKeepsTheInvariant : Inv busy ∧ step busy = .next busy1 ∧ Reaches busy busy3 :=
  ⟨inv_of_check (by decide), busy_step.1, busy_reaches⟩
theorem witness_ProgramAndParametersNeverChange : Reaches busy busy3 := busy_reaches
/-- A step to halted, a step to faulted, and a state reached from one that has halted. -/
theorem witness_StatusMovesAtMostOnce : (step busy2 = .next busy3 ∧ busy3.status ≠ busy2.status) ∧
    (step (engine [] 0 []) = .next (takeFault (engine [] 0 []) ⟨.fetchOob, 0⟩) ∧
      (takeFault (engine [] 0 []) ⟨.fetchOob, 0⟩).status ≠ (engine [] 0 []).status) ∧
    (busy3.status ≠ .running ∧ Reaches busy3 busy3) :=
  ⟨⟨busy_step.2.2, by decide⟩, ⟨next_of_after (by decide), by decide⟩, by decide, .refl⟩
theorem witness_OutputOnlyGrows : Reaches busy busy3 := busy_reaches
theorem witness_StepChangesDepthsLittle : step busy1 = .next busy2 := busy_step.2.1

/-- An instruction outside every list of the frame, a store and a transfer. -/
theorem witness_InstructionsChangeOnlyTheirColumns :
    (busy1.status ≠ .faulted ∧ exec .printu busy1 = .next busy2 ∧ busy2.status ≠ .faulted ∧
      Instr.printu ∉ [Instr.call, .ret, .jp, .jpc, .jr, .jrc]) ∧
    (exec .write8 (engine [] 0 [3, 511]) = .next { engine [] 1 [] with mem := [(3, 0xFF)] }) ∧
    (exec .jp (engine [] 2 [9]) = .next (engine [] 9 [])) :=
  ⟨⟨by decide, next_of_after (by decide), by decide, by decide⟩, next_of_after (by decide), next_of_after (by decide)⟩
/-- A store, its neighbouring addresses, an instruction that stores nothing, and a store that faults. -/
theorem witness_StoresTouchOnlyTheirBytes :
    ({ engine [] 0 [15, 511] with mem := eightBytes }).mem.wf = true ∧
    exec .write8 { engine [] 0 [15, 511] with mem := eightBytes } =
      .next { engine [] 1 [] with mem := eightBytes.take 7 ++ [(15, 0xFF)] } ∧
    storedBytes .write8 { engine [] 0 [15, 511] with mem := eightBytes } = some (15, 1) ∧
    storedBytes .printu busy1 = none ∧ exec .printu busy1 = .next busy2 ∧
    exec .write8 (engine [] 0 [65536, 1]) = .next (takeFault (engine [] 0 [65536, 1]) ⟨.memOob, 65536⟩) :=
  ⟨by decide, next_of_after (by decide), by decide, by decide, next_of_after (by decide), next_of_after (by decide)⟩
/-- Both sides of each bound, and `2^63`. -/
theorem witness_BoundsAtTheDefaultCapacity :
    (∀ a ∈ [(65535 : Word), 65536, 65528, 65529, 0x8000000000000000],
      (engine [] 0 [a, 7]).params.memCapacity = 65536 ∧ (engine [] 0 [a, 7]).stacksFit = true ∧
      (engine [] 0 [a, 7]).status = .running ∧ (engine [] 0 [a, 7]).ostack = a :: 7 :: []) ∧
    (65535 : Word).toNat ≤ 65535 ∧ 65535 < (65536 : Word).toNat ∧ (65528 : Word).toNat ≤ 65528 ∧
    65528 < (65529 : Word).toNat ∧ 2 ^ 63 ≤ (0x8000000000000000 : Word).toNat := by
  simp [engine, State.init, Params.standard, State.stacksFit, fits]

/-- Eight one-byte writes from address 3 on, over the bytes of `eightBytes`. -/
def byteWrites : Nat → State
  | 0 => { engine [] 0 [] with mem := eightBytes }
  | n + 1 => (memWrite (3 + BitVec.ofNat 64 n) 1 (BitVec.ofNat 64 (200 + 30 * n)) (byteWrites n)).toOption.getD (engine [] 0 [])

theorem eq_ok_of_toOption {ε α : Type} {r : Except ε α} {a : α} (h : r.toOption = some a) : r = .ok a := by
  cases r with
  | ok b => cases h; rfl
  | error e => cases h

theorem witness_MixedWidthAccessesAgree :
    (busy.params.wf = true ∧ busy.mem.wf = true ∧
      memWrite 65528 8 1 busy = .ok { busy with mem := eightBytes ++ [(65528, 1)] }) ∧
    ((byteWrites 0).params.wf = true ∧ (byteWrites 0).mem.wf = true ∧
      (3 : Word).toNat + 8 ≤ (byteWrites 0).params.memCapacity ∧
      ∀ k, k < 8 → memWrite (3 + BitVec.ofNat 64 k) 1 (BitVec.ofNat 64 (200 + 30 * k)) (byteWrites k) =
        .ok (byteWrites (k + 1))) := by
  refine ⟨⟨by decide, by decide, eq_ok_of_toOption (by decide)⟩, by decide, by decide, by decide, fun k hk => ?_⟩
  refine eq_ok_of_toOption ?_
  interval_cases k <;> decide
theorem witness_CanonicalMemoriesAreEqualData : eightBytes.wf = true ∧
    Memory.wf (Memory.writeByte (Memory.writeByte eightBytes 20 5) 20 0) = true ∧
    ∀ x, eightBytes.readByte x = (Memory.writeByte (Memory.writeByte eightBytes 20 5) 20 0).readByte x :=
  ⟨by decide, by decide, fun _ => rfl⟩
theorem witness_RunsIgnoreEarlierOutput : run 2 busy = .next busy2 := next_of_after (by decide)
/-- A step that does not fault, and one that does. -/
theorem witness_StepsIgnoreTheFaultRecord : (busy.status = .running ∧ step busy = .next busy1 ∧ busy1.status ≠ .faulted) ∧
    ((engine [] 0 []).status = .running ∧
      step (engine [] 0 []) = .next (takeFault (engine [] 0 []) ⟨.fetchOob, 0⟩)) :=
  ⟨⟨rfl, busy_step.1, by decide⟩, rfl, next_of_after (by decide)⟩

/-- V110 and the `ret` of program P5. -/
theorem witness_RetResumesAfterTheCall :
    (engine [] 4 [7, 21]).status = .running ∧
    exec .call (engine [] 4 [7, 21]) = .next { engine [] 7 [21] with cstack := [5] } ∧
    ({ engine [] 7 [21] with cstack := [5] }).status = .running ∧
    ({ engine [] 10 [42] with cstack := [5] }).cstack = ({ engine [] 7 [21] with cstack := [5] }).cstack ∧
    exec .ret { engine [] 10 [42] with cstack := [5] } = .next (engine [] 5 [42]) :=
  ⟨rfl, next_of_after (by decide), rfl, rfl, next_of_after (by decide)⟩
/-- Targets equal to `LEN`: each of `call`, `jp`, `jr`, the taken `jpc` and `jrc`, `ret`; and the untaken two. -/
theorem witness_BadTargetsFaultAtTheNextFetch :
    ((engine [0, 3, 17] 2 [3]).status = .running ∧ (engine [0, 3, 17] 2 [3]).ostack = 3 :: [] ∧
      (engine [0, 3, 17] 2 [3]).prog.length ≤ (3 : Word).toNat ∧
      (engine [0, 3, 17] 2 [3]).params.cstackDepth ≠ some (engine [0, 3, 17] 2 [3]).cstack.length) ∧
    ((engine [0, 0, 21] 2 [0]).ostack = 0 :: [] ∧ (engine [0, 0, 21] 2 [0]).prog.length ≤ ((2 : Word) + 1 + 0).toNat) ∧
    ((engine [0, 3, 20] 2 [3, 1]).ostack = 3 :: 1 :: [] ∧ (1 : Word) ≠ 0 ∧
      (engine [0, 3, 20] 2 [3, 1]).prog.length ≤ (3 : Word).toNat) ∧
    ((engine [0, 0, 22] 2 [0, 1]).ostack = 0 :: 1 :: [] ∧
      (engine [0, 0, 22] 2 [0, 1]).prog.length ≤ ((2 : Word) + 1 + 0).toNat) ∧
    (engine [0, 1000, 20] 2 [1000, 0]).ostack = 1000 :: 0 :: [] ∧
    ({ engine [18, 17] 0 [] with cstack := [2] }).cstack = 2 :: [] ∧
    ({ engine [18, 17] 0 [] with cstack := [2] }).prog.length ≤ (2 : Word).toNat := by decide
/-- The last clause: a jump past the end, a call to `LEN`, and a return to it. -/
theorem witness_BadTargetsFaultAtTheNextFetch_left :
    (exec .jp (engine [0, 100, 19, 23] 2 [100]) = .next (engine [0, 100, 19, 23] 100 []) ∧
      (engine [0, 100, 19, 23] 100 []).prog.length ≤ (100 : Word).toNat) ∧
    (exec .call (engine [0, 3, 17] 2 [3]) = .next { engine [0, 3, 17] 3 [] with cstack := [3] } ∧
      ({ engine [0, 3, 17] 3 [] with cstack := [3] }).prog.length ≤ (3 : Word).toNat) ∧
    (exec .ret { engine [18, 17] 0 [] with cstack := [2] } = .next (engine [18, 17] 2 []) ∧
      (engine [18, 17] 2 []).prog.length ≤ (2 : Word).toNat) :=
  ⟨⟨next_of_after (by decide), by decide⟩, ⟨next_of_after (by decide), by decide⟩, next_of_after (by decide), by decide⟩
theorem witness_NoOverflowWithUnboundedStacks :
    (engine [3] 0 []).params.ostackDepth = none ∧ (engine [3] 0 []).params.cstackDepth = none ∧
    (engine [3] 0 []).status = .running ∧
    step (engine [3] 0 []) = .next (takeFault (engine [3] 0 []) ⟨.ostackUnderflow, 0⟩) ∧
    (takeFault (engine [3] 0 []) ⟨.ostackUnderflow, 0⟩).status = .faulted :=
  ⟨rfl, rfl, rfl, next_of_after (by decide), rfl⟩
theorem witness_RunsEndInOneState : RunsTo busy busy3 ∧ RunsTo busy busy3 := ⟨busy_runs, 5, next_of_after (by decide), by decide⟩
theorem witness_NoStepStops : busy3.status ≠ .running := by decide
/-- Placed at the model's reset state, and past the end of a program. -/
theorem witness_PlacedWordIsTheNextInstruction :
    (State.reset.params.opcodes = OpcodeMap.dense ∧ State.reset.ip.toNat + 2 < 2 ^ 64) ∧
    ((engine [23] 9 []).params.opcodes = OpcodeMap.dense ∧ (engine [23] 9 []).ip.toNat + 2 < 2 ^ 64) ∧
    decodeTableWord 128 (5 * 2 ^ 64) = some (.push 5) := by decide

/-- The expansions of `jp 3`, of `jpc 3` and `jrc 2` with both conditions, and of `jr -3`, at the last place of a stack of
two. -/
theorem witness_JumpStatementsExpandRight :
    (∀ s ∈ [tight [0, 3, 19, 23] 0 [9] [], tight [0, 3, 20, 23] 0 [1] [], tight [0, 3, 20, 23] 0 [0] [],
        tight [0, 0xFFFFFFFFFFFFFFFD, 21] 0 [9] [], tight [0, 2, 22] 0 [5] [], tight [0, 2, 22] 0 [0] []],
      Inv s ∧ s.status = .running ∧ s.params.ostackDepth ≠ some s.ostack.length) ∧
    (tight [0, 3, 19, 23] 0 [9] []).prog.drop 0 = OpcodeMap.dense.push :: 3 :: OpcodeMap.dense.jp :: [23] ∧
    (tight [0, 3, 20, 23] 0 [1] []).ostack = 1 :: [] ∧
    (tight [0, 3, 20, 23] 0 [1] []).prog.drop 0 = OpcodeMap.dense.push :: 3 :: OpcodeMap.dense.jpc :: [23] ∧
    (tight [0, 0xFFFFFFFFFFFFFFFD, 21] 0 [9] []).prog.drop 0 =
      OpcodeMap.dense.push :: 0xFFFFFFFFFFFFFFFD :: OpcodeMap.dense.jr :: [] ∧
    (tight [0, 2, 22] 0 [5] []).ostack = 5 :: [] ∧ (tight [0, 2, 22] 0 [0] []).ostack = 0 :: [] ∧
    (tight [0, 2, 22] 0 [5] []).prog.drop 0 = OpcodeMap.dense.push :: 2 :: OpcodeMap.dense.jrc :: [] := by
  refine ⟨fun s hs => ?_, rfl, rfl, rfl, rfl, rfl, rfl, rfl⟩
  fin_cases hs <;> exact ⟨inv_of_check (by decide), rfl, by decide⟩

/-- The statements of `jpc a; halt; a: printu`. -/
def labelled : List Located :=
  [⟨.ref .jpc ['a'], ⟨1, 1⟩, ⟨1, 5⟩⟩, ⟨.plain .halt, ⟨2, 1⟩, ⟨2, 5⟩⟩, ⟨.label ['a'], ⟨3, 1⟩, ⟨3, 3⟩⟩,
    ⟨.plain .printu, ⟨4, 1⟩, ⟨4, 7⟩⟩]

theorem witness_AssemblerResolvesLabels : assembleStmts OpcodeMap.dense labelled = .ok [0, 4, 20, 23, 15] ∧
    labelled = labelled.take 2 ++ ⟨.label ['a'], ⟨3, 1⟩, ⟨3, 3⟩⟩ :: labelled.drop 3 :=
  ⟨eq_ok_of_toOption (by decide), rfl⟩
/-- A run that halts and one that faults. -/
theorem witness_HostReadsTheResult : (RunsTo busy busy3 ∧ busy3.status = .halted) ∧
    (RunsTo (engine [] 0 []) (takeFault (engine [] 0 []) ⟨.fetchOob, 0⟩) ∧
      (takeFault (engine [] 0 []) ⟨.fetchOob, 0⟩).status = .faulted) :=
  ⟨⟨busy_runs, rfl⟩, ⟨1, next_of_after (by decide), by decide⟩, rfl⟩

end Sys2Proof.Tests
end

section
/-! PROOFS. The invariant at the state after reset (R5, R24, R190). -/

namespace Sys2Proof.Machine

/-- The default parameters are admissible (R5): the default opcode map is injective and the buffer's size is a word. -/
theorem Params.standard_wf : Params.standard.wf = true :=
  Bool.and_eq_true_iff.2 ⟨OpcodeMap.dense_wf, by decide⟩

/-- The memory after reset lists no byte, which is the canonical form of a blank buffer (R24, log 7). -/
theorem Memory.wf_nil : Memory.wf [] = true := rfl

/-- The memory after reset is inside a buffer of any size (R24). -/
theorem Memory.within_nil (capacity : Nat) : Memory.within [] capacity = true := rfl

/-- The empty stacks of reset fit every depth, even a depth of 0 (R5, R24). -/
theorem State.stacksFit_init (p : Params) (prog : List Word) : (State.init p prog).stacksFit = true :=
  State.stacksFit_iff.2 ⟨fun d _ => Nat.zero_le d, fun d _ => Nat.zero_le d⟩

/-- Reset establishes the invariant: what the parameters and the program must meet is assumed, and the rest holds because
R24 empties the memory and the stacks and leaves the engine running. -/
theorem inv_init {p : Params} {prog : List Word} (hp : p.wf = true) (hprog : programWf prog = true) :
    Inv (State.init p prog) where
  params := hp
  prog := hprog
  memCanonical := Memory.wf_nil
  memWithin := Memory.within_nil p.memCapacity
  stacksFit := State.stacksFit_init p prog
  returns := by simp
  record := by simp

/-- Settles O25: `inv_init` for all admissible parameters and programs, and again at the choices of the model's own reset
state, the default parameters and the empty program. -/
theorem invariantHoldsAtReset : Obligations.InvariantHoldsAtReset :=
  ⟨fun _ _ hp hprog => inv_init hp hprog, inv_init Params.standard_wf (by decide)⟩

end Sys2Proof.Machine
end

section
/-! PROOFS. The state and its columns (R10): what reset sets (R24), what every instruction leaves as it was (R11), and the
two parts of the state that no instruction reads, the output (R21) and the fault record (R18). -/

namespace Sys2Proof.Machine

/-! The values after reset (R24). -/

/-- A memory that lists no byte reads as blank everywhere (R24, R30). -/
theorem Memory.readByte_nil (x : Nat) : Memory.readByte [] x = 0 := rfl

/-- Settles O24: each field of `State.init`, memory byte by byte. -/
theorem resetValues : Obligations.ResetValues := fun p prog => by
  simp [Memory.readByte_nil]

/-! The frame of an effect, one column of the state table at a time (R10, R11). -/

section Frame

variable {i : Instr} {s t : State}

theorem Effect.params_eq (h : Effect s i t) : t.params = s.params := by
  cases h <;> simp [apply_ite State.params]

theorem Effect.prog_eq (h : Effect s i t) : t.prog = s.prog := by
  cases h <;> simp [apply_ite State.prog]

theorem Effect.cause_eq (h : Effect s i t) : t.cause = s.cause := by
  cases h <;> simp [apply_ite State.cause]

theorem Effect.faultPc_eq (h : Effect s i t) : t.faultPc = s.faultPc := by
  cases h <;> simp [apply_ite State.faultPc]

theorem Effect.faultInfo_eq (h : Effect s i t) : t.faultInfo = s.faultInfo := by
  cases h <;> simp [apply_ite State.faultInfo]

/-- Only `halt` writes the status (R150). -/
theorem Effect.status_eq (h : Effect s i t) (hi : i ≠ .halt) : t.status = s.status := by
  cases h with
  | halt => exact absurd rfl hi
  | _ => simp [apply_ite State.status]

/-- The arithmetic and comparison instructions are one word long (R52). -/
theorem words_of_binaryFn {f : Word → Word → Word} (h : binaryFn i = some f) : i.words = 1 := by
  cases i with
  | push | dup => simp [binaryFn] at h
  | _ => rfl

/-- Every instruction but the transfers of control moves `ip` past its own words (R15). -/
theorem Effect.ip_eq (h : Effect s i t) (hi : i ∉ [Instr.call, .ret, .jp, .jpc, .jr, .jrc]) :
    t.ip = s.ip + BitVec.ofNat 64 i.words := by
  cases h with
  | call | ret => simp at hi
  | transfer _ form | transferIf _ form => simp only [List.mem_cons] at form hi; tauto
  | binary _ form => simp [words_of_binaryFn form]
  | load _ _ form | store _ _ form =>
    have hw : i.words = 1 := by
      simp only [List.mem_cons, Prod.mk.injEq, List.not_mem_nil, or_false] at form
      rcases form with ⟨rfl, _⟩ | ⟨rfl, _⟩ <;> rfl
    simp [hw]
  | push | dup | swap | printu | puts | halt => rfl

/-- Only `call` and `ret` write the call stack (R14). -/
theorem Effect.cstack_eq (h : Effect s i t) (hi : i ∉ [Instr.call, .ret]) : t.cstack = s.cstack := by
  cases h with
  | call | ret => simp at hi
  | _ => simp [apply_ite State.cstack]

/-- Only the two stores write memory (R36). -/
theorem Effect.mem_eq (h : Effect s i t) (hi : i ∉ [Instr.write8, .write64]) : t.mem = s.mem := by
  cases h with
  | store _ _ form => simp only [List.mem_cons, Prod.mk.injEq] at form hi; tauto
  | _ => simp [apply_ite State.mem]

/-- Only `printu` and `puts` emit (R21). -/
theorem Effect.out_eq (h : Effect s i t) (hi : i ∉ [Instr.printu, .puts]) : t.out = s.out := by
  cases h with
  | printu | puts => simp at hi
  | _ => simp [apply_ite State.out]

/-- `ret` and `halt` leave the operand stack (R131, R150). -/
theorem Effect.ostack_eq (h : Effect s i t) (hi : i ∈ [Instr.ret, .halt]) : t.ostack = s.ostack := by
  cases h with
  | ret | halt => rfl
  | push | dup | swap | printu | puts | call => simp at hi
  | binary _ form | load _ _ form | store _ _ form | transfer _ form | transferIf _ form =>
    simp only [List.mem_cons, List.not_mem_nil, or_false] at hi
    rcases hi with rfl | rfl <;> simp [binaryFn] at form

/-- No instruction touches a value below the top two of the operand stack (R11). -/
theorem Effect.drop_two_suffix (h : Effect s i t) : s.ostack.drop 2 <:+ t.ostack := by
  cases h with
  | push | dup => exact (List.drop_suffix 2 _).trans (List.suffix_cons _ _)
  | ret | halt => exact List.drop_suffix 2 _
  | swap ops => simpa [ops] using (List.suffix_append [_, _] _)
  | binary ops => simp [ops]
  | load ops => simpa [ops] using (List.drop_suffix 1 _).trans (List.suffix_cons _ _)
  | store ops | puts ops => simp [ops]
  | printu ops | call ops | transfer ops => simpa [ops] using List.drop_suffix 1 _
  | transferIf ops => simp [ops, apply_ite State.ostack]

end Frame

/-- Settles O31: without a fault the next state is the instruction's own effect, whose frame is the columns above. -/
theorem instructionsChangeOnlyTheirColumns : Obligations.InstructionsChangeOnlyTheirColumns := by
  intro i s t _ hexec ht
  rcases exec_cases hexec with ⟨e, rfl⟩ | h
  · simp at ht
  · obtain ⟨pushed, hp⟩ := h.drop_two_suffix
    exact ⟨h.params_eq, h.prog_eq, h.cause_eq, h.faultPc_eq, h.faultInfo_eq, h.status_eq, h.ip_eq, h.cstack_eq,
      h.mem_eq, h.out_eq, h.ostack_eq, pushed, hp.symm⟩

/-! Parts of the state that no instruction reads. Two states that differ in such a part only are related by `R`; every
primitive answers alike from both, hence so does every instruction and every step. -/

/-- Related states hold the same in every part an instruction reads, and the updates of the state keep them related. -/
structure Unread (R : State → State → Prop) : Prop where
  params {s s' : State} : R s s' → s'.params = s.params
  prog {s s' : State} : R s s' → s'.prog = s.prog
  ip {s s' : State} : R s s' → s'.ip = s.ip
  ostack {s s' : State} : R s s' → s'.ostack = s.ostack
  cstack {s s' : State} : R s s' → s'.cstack = s.cstack
  mem {s s' : State} : R s s' → s'.mem = s.mem
  status {s s' : State} : R s s' → s'.status = s.status
  setIp {s s' : State} : R s s' → ∀ t, R (s.setIp t) (s'.setIp t)
  setOstack {s s' : State} : R s s' → ∀ st, R (s.setOstack st) (s'.setOstack st)
  setCstack {s s' : State} : R s s' → ∀ st, R (s.setCstack st) (s'.setCstack st)
  setMem {s s' : State} : R s s' → ∀ m, R (s.setMem m) (s'.setMem m)
  emit {s s' : State} : R s s' → ∀ bs, R (s.emit bs) (s'.emit bs)
  halt {s s' : State} : R s s' → R s.halt s'.halt

/-- Two computations agree: both raise the same, or both answer, with related answers. -/
inductive Agree {α : Type} (Q : α → α → Prop) : Except Raise α → Except Raise α → Prop where
  | error (e : Raise) : Agree Q (.error e) (.error e)
  | ok {a a' : α} (h : Q a a') : Agree Q (.ok a) (.ok a')

/-- The same value popped, and related things left. -/
def Popped {α : Type} (Q : α → α → Prop) (p p' : Word × α) : Prop := p.1 = p'.1 ∧ Q p.2 p'.2

/-- Computations that are equal agree. -/
theorem Agree.of_eq {α : Type} {x x' : Except Raise α} (h : x' = x) : Agree Eq x x' := by
  subst h
  cases x' with
  | error e => exact .error e
  | ok a => exact .ok rfl

/-- Sequences agree if their first parts do and their second parts do after related answers. -/
theorem Agree.bind {α β : Type} {Q : α → α → Prop} {Q' : β → β → Prop} {x x' : Except Raise α}
    {f f' : α → Except Raise β} (hx : Agree Q x x') (hf : ∀ a a', Q a a' → Agree Q' (f a) (f' a')) :
    Agree Q' (x >>= f) (x' >>= f') := by
  cases hx with
  | error e => exact .error e
  | ok h => exact hf _ _ h

/-- Two steps end alike: both take the same fault, each from its own state, or both reach related states. -/
def Alike (R : State → State → Prop) (s s' : State) (o o' : Host.Outcome State Fault Refusal) : Prop :=
  (∃ e, o = .next (takeFault s e) ∧ o' = .next (takeFault s' e)) ∨ ∃ t t', R t t' ∧ o = .next t ∧ o' = .next t'

/-- Instructions whose bodies agree end alike. -/
theorem Agree.finish_alike {R : State → State → Prop} {s s' : State} {r r' : Except Raise State} (h : Agree R r r') :
    Alike R s s' (finish s r) (finish s' r') := by
  cases h with
  | error e => exact .inl ⟨e, rfl, rfl⟩
  | ok h => exact .inr ⟨_, _, h, rfl, rfl⟩

namespace Unread

variable {R : State → State → Prop} {s s' : State} (hR : Unread R) (h : R s s')
include hR h

theorem advance (n : Nat) : R (s.advance n) (s'.advance n) := by
  unfold State.advance
  rw [hR.ip h]
  exact hR.setIp h _

theorem pop_agree : Agree (Popped R) (pop s) (pop s') := by
  unfold pop
  rw [hR.ostack h]
  split
  · exact .error _
  · exact .ok ⟨rfl, hR.setOstack h _⟩

theorem push_agree (v : Word) : Agree R (push v s) (push v s') := by
  unfold push
  rw [hR.ostack h, hR.params h]
  split
  · exact .error _
  · exact .ok (hR.setOstack h _)

theorem cpop_agree : Agree (Popped R) (cpop s) (cpop s') := by
  unfold cpop
  rw [hR.cstack h]
  split
  · exact .error _
  · exact .ok ⟨rfl, hR.setCstack h _⟩

theorem cpush_agree (v : Word) : Agree R (cpush v s) (cpush v s') := by
  unfold cpush
  rw [hR.cstack h, hR.params h]
  split
  · exact .error _
  · exact .ok (hR.setCstack h _)

theorem peek_agree (n : Word) : Agree Eq (peek n s) (peek n s') :=
  .of_eq (by rw [peek, peek, hR.ostack h])

theorem inBounds_eq (addr : Word) (n : Nat) : inBounds s' addr n = inBounds s addr n := by
  rw [inBounds, inBounds, hR.params h]

theorem memRead_agree (addr : Word) (n : Nat) : Agree Eq (memRead addr n s) (memRead addr n s') :=
  .of_eq (by rw [memRead, memRead, hR.inBounds_eq h, hR.mem h])

theorem memBytes_agree (addr n : Word) : Agree Eq (memBytes addr n s) (memBytes addr n s') :=
  .of_eq (by rw [memBytes, memBytes, hR.inBounds_eq h, hR.mem h])

theorem memWrite_agree (addr : Word) (n : Nat) (v : Word) : Agree R (memWrite addr n v s) (memWrite addr n v s') := by
  unfold memWrite
  rw [hR.inBounds_eq h, hR.mem h]
  split
  · exact .ok (hR.setMem h _)
  · exact .error _

theorem pop2_agree : Agree (Popped (Popped R)) (pop2 s) (pop2 s') := by
  refine (hR.pop_agree h).bind ?_
  rintro ⟨x, s⟩ ⟨_, s'⟩ ⟨rfl, h⟩
  refine (hR.pop_agree h).bind ?_
  rintro ⟨y, s⟩ ⟨_, s'⟩ ⟨rfl, h⟩
  exact .ok ⟨rfl, rfl, h⟩

theorem binary_agree (f : Word → Word → Word) : Agree R (binary f s) (binary f s') := by
  refine (hR.pop2_agree h).bind ?_
  rintro ⟨a, b, s⟩ ⟨_, _, s'⟩ ⟨rfl, rfl, h⟩
  exact hR.push_agree h _

theorem load_agree (n : Nat) : Agree R (load n s) (load n s') := by
  refine (hR.pop_agree h).bind ?_
  rintro ⟨addr, s⟩ ⟨_, s'⟩ ⟨rfl, h⟩
  refine (hR.memRead_agree h addr n).bind ?_
  rintro v _ rfl
  exact hR.push_agree h v

theorem store_agree (n : Nat) : Agree R (store n s) (store n s') := by
  refine (hR.pop2_agree h).bind ?_
  rintro ⟨addr, value, s⟩ ⟨_, _, s'⟩ ⟨rfl, rfl, h⟩
  exact hR.memWrite_agree h addr n value

theorem transfer_agree (target : Word → Word → Word) : Agree R (transfer target s) (transfer target s') := by
  refine (hR.pop_agree h).bind ?_
  rintro ⟨t, s⟩ ⟨_, s'⟩ ⟨rfl, h⟩
  refine .ok ?_
  rw [hR.ip h]
  exact hR.setIp h _

theorem transferIf_agree (target : Word → Word → Word) : Agree R (transferIf target s) (transferIf target s') := by
  refine (hR.pop2_agree h).bind ?_
  rintro ⟨t, cond, s⟩ ⟨_, _, s'⟩ ⟨rfl, rfl, h⟩
  refine .ok ?_
  rw [hR.ip h]
  split
  · exact hR.setIp h _
  · exact h

/-- An instruction ends alike from related states. -/
theorem exec_alike (i : Instr) : Alike R s s' (exec i s) (exec i s') := by
  have h1 : R (s.advance 1) (s'.advance 1) := hR.advance h 1
  have h2 : R (s.advance 2) (s'.advance 2) := hR.advance h 2
  cases i with
  | push imm => exact (hR.push_agree h2 imm).finish_alike
  | dup n =>
    refine Agree.finish_alike ((hR.peek_agree h2 n).bind ?_)
    rintro v _ rfl
    exact hR.push_agree h2 v
  | swap =>
    refine Agree.finish_alike ((hR.pop2_agree h1).bind ?_)
    rintro ⟨a, b, s⟩ ⟨_, _, s'⟩ ⟨rfl, rfl, h⟩
    exact (hR.push_agree h a).bind fun _ _ h => hR.push_agree h b
  | add | sub | multu | gt | lt | eq | ge | le => exact (hR.binary_agree h1 _).finish_alike
  | read8 | read64 => exact (hR.load_agree h1 _).finish_alike
  | write8 | write64 => exact (hR.store_agree h1 _).finish_alike
  | printu =>
    refine Agree.finish_alike ((hR.pop_agree h1).bind ?_)
    rintro ⟨a, s⟩ ⟨_, s'⟩ ⟨rfl, h⟩
    refine .ok ?_
    rw [hR.params h]
    exact hR.emit h _
  | puts =>
    refine Agree.finish_alike ((hR.pop2_agree h1).bind ?_)
    rintro ⟨size, ptr, s⟩ ⟨_, _, s'⟩ ⟨rfl, rfl, h⟩
    refine (hR.memBytes_agree h ptr size).bind ?_
    rintro bs _ rfl
    exact .ok (hR.emit h bs)
  | call =>
    refine Agree.finish_alike ((hR.pop_agree h1).bind ?_)
    rintro ⟨addr, s⟩ ⟨_, s'⟩ ⟨rfl, h⟩
    refine Agree.bind (Q := R) ?_ fun _ _ h => .ok (hR.setIp h addr)
    rw [hR.ip h]
    exact hR.cpush_agree h s.ip
  | ret =>
    refine Agree.finish_alike ((hR.cpop_agree h1).bind ?_)
    rintro ⟨v, s⟩ ⟨_, s'⟩ ⟨rfl, h⟩
    exact .ok (hR.setIp h v)
  | jp | jr => exact (hR.transfer_agree h1 _).finish_alike
  | jpc | jrc => exact (hR.transferIf_agree h1 _).finish_alike
  | halt => exact (Agree.ok (hR.halt h1)).finish_alike

/-- Related states fetch the same instruction, or the same fault. -/
theorem fetchInstr_eq : fetchInstr s' = fetchInstr s := by
  simp only [fetchInstr, fetchWord, hR.prog h, hR.ip h, hR.params h]

/-- A step of a running engine ends alike from related states. -/
theorem step_alike (hs : s.status = .running) : Alike R s s' (step s) (step s') := by
  have hs' : s'.status = .running := (hR.status h).trans hs
  simp only [step, hs, hs', hR.fetchInstr_eq h]
  cases fetchInstr s with
  | error e => exact .inl ⟨e, rfl, rfl⟩
  | ok i => exact hR.exec_alike h i

end Unread

/-! The output is not read (R21). -/

/-- The state with other earlier output. -/
def State.withEarlier (o : List Byte) (s : State) : State := { s with out := o ++ s.out }

theorem unread_withEarlier (o : List Byte) : Unread fun s s' => s' = s.withEarlier o where
  params := by rintro s _ rfl; rfl
  prog := by rintro s _ rfl; rfl
  ip := by rintro s _ rfl; rfl
  ostack := by rintro s _ rfl; rfl
  cstack := by rintro s _ rfl; rfl
  mem := by rintro s _ rfl; rfl
  status := by rintro s _ rfl; rfl
  setIp := by rintro s _ rfl t; rfl
  setOstack := by rintro s _ rfl st; rfl
  setCstack := by rintro s _ rfl st; rfl
  setMem := by rintro s _ rfl m; rfl
  emit := by rintro s _ rfl bs; simp [State.withEarlier, State.emit]
  halt := by rintro s _ rfl; rfl

/-- A step goes the same way after other earlier output: a fault leaves that output, an effect appends to it. -/
theorem step_withEarlier {s t : State} (o : List Byte) (h : step s = .next t) :
    step (s.withEarlier o) = .next (t.withEarlier o) := by
  by_cases hs : s.status = .running
  · rcases (unread_withEarlier o).step_alike rfl hs with ⟨e, he, he'⟩ | ⟨u, _, rfl, hu, hu'⟩
    · obtain rfl : takeFault s e = t := by simpa [he] using h
      exact he'
    · obtain rfl : u = t := by simpa [hu] using h
      exact hu'
  · obtain rfl : s = t := by simpa [step_of_not_running hs] using h
    exact step_of_not_running (s := s.withEarlier o) hs

/-- A run of an engine that is not running stays where it is (R192). -/
theorem run_of_not_running {s : State} (hs : s.status ≠ .running) (n : Nat) : run n s = .next s := by
  cases n with
  | zero => rfl
  | succ n => cases h : s.status <;> simp_all [run]

/-- A run of a running engine is a step and the rest of the run (R192). -/
theorem run_succ_eq_next {s t : State} {n : Nat} (hs : s.status = .running) :
    run (n + 1) s = .next t ↔ ∃ u, step s = .next u ∧ run n u = .next t := by
  simp only [run, hs]
  cases step s <;> simp

/-- A run goes the same way after other earlier output. -/
theorem run_withEarlier (o : List Byte) {n : Nat} {s t : State} (h : run n s = .next t) :
    run n (s.withEarlier o) = .next (t.withEarlier o) := by
  induction n generalizing s with
  | zero =>
    cases h
    rfl
  | succ n ih =>
    by_cases hs : s.status = .running
    · obtain ⟨u, hu, hrun⟩ := (run_succ_eq_next hs).1 h
      exact (run_succ_eq_next (s := s.withEarlier o) hs).2 ⟨_, step_withEarlier o hu, ih hrun⟩
    · obtain rfl : s = t := by simpa [run_of_not_running hs] using h
      exact run_of_not_running (s := s.withEarlier o) hs _

/-- Settles O36, by induction on the length of the run. -/
theorem runsIgnoreEarlierOutput : Obligations.RunsIgnoreEarlierOutput :=
  fun _ _ _ o h => run_withEarlier o h

/-! The fault record is not read (R18). -/

/-- The state with another fault record. -/
def State.withRecord (s : State) (c : BitVec 3) (pc info : Word) : State :=
  { s with cause := c, faultPc := pc, faultInfo := info }

/-- The relation also says that neither engine has faulted: no effect of an instruction enters that status. -/
theorem unread_withRecord (c : BitVec 3) (pc info : Word) :
    Unread fun s s' => s.status ≠ .faulted ∧ s' = s.withRecord c pc info where
  params := by rintro s _ ⟨_, rfl⟩; rfl
  prog := by rintro s _ ⟨_, rfl⟩; rfl
  ip := by rintro s _ ⟨_, rfl⟩; rfl
  ostack := by rintro s _ ⟨_, rfl⟩; rfl
  cstack := by rintro s _ ⟨_, rfl⟩; rfl
  mem := by rintro s _ ⟨_, rfl⟩; rfl
  status := by rintro s _ ⟨_, rfl⟩; rfl
  setIp := by rintro s _ ⟨hs, rfl⟩ t; exact ⟨hs, rfl⟩
  setOstack := by rintro s _ ⟨hs, rfl⟩ st; exact ⟨hs, rfl⟩
  setCstack := by rintro s _ ⟨hs, rfl⟩ st; exact ⟨hs, rfl⟩
  setMem := by rintro s _ ⟨hs, rfl⟩ m; exact ⟨hs, rfl⟩
  emit := by rintro s _ ⟨hs, rfl⟩ bs; exact ⟨hs, rfl⟩
  halt := by rintro s _ ⟨_, rfl⟩; exact ⟨by simp, rfl⟩

/-- A fault overwrites the whole record (R169). -/
theorem takeFault_withRecord (s : State) (c : BitVec 3) (pc info : Word) (e : Raise) :
    takeFault (s.withRecord c pc info) e = takeFault s e := rfl

/-- Settles O37: a step takes the same fault, which overwrites the record, or has an effect that keeps it. -/
theorem stepsIgnoreTheFaultRecord : Obligations.StepsIgnoreTheFaultRecord := by
  intro s t c pc info hs h
  have hrel : s.status ≠ .faulted ∧ s.withRecord c pc info = s.withRecord c pc info := ⟨by simp [hs], rfl⟩
  rcases (unread_withRecord c pc info).step_alike hrel hs with ⟨e, he, he'⟩ | ⟨u, _, ⟨hok, rfl⟩, hu, hu'⟩
  · obtain rfl : takeFault s e = t := by simpa [he] using h
    rw [takeFault_withRecord] at he'
    exact ⟨fun _ => he', fun hne => absurd rfl hne⟩
  · obtain rfl : u = t := by simpa [hu] using h
    exact ⟨fun hf => absurd hf hok, fun _ => hu'⟩

end Sys2Proof.Machine
end

section
/-! PROOFS. The memory (20_memory): the list form read back (R30, log 7), runs of bytes and their value (R31, R32), the
bounds rule at the four accesses (R33), the frame of the stores (R36), accesses of mixed width (R37), and the fetch of an
instruction placed in the program (R40, R51). -/

namespace Sys2Proof.Machine

/-! The list form (R30, log 7). -/

/-- The first listed address reads as its own byte. -/
theorem Memory.readByte_cons_self (a : Nat) (b : Byte) (m : Memory) : Memory.readByte ((a, b) :: m) a = b :=
  if_pos rfl

/-- An address other than the first listed one reads as in the rest of the list. -/
theorem Memory.readByte_cons_of_ne {a x : Nat} (b : Byte) (m : Memory) (h : a ≠ x) :
    Memory.readByte ((a, b) :: m) x = m.readByte x :=
  if_neg h

/-- In a canonical list nothing up to the first listed address is listed again. -/
theorem Memory.readByte_tail_blank {a x : Nat} {b : Byte} {m : Memory} (h : Memory.wf ((a, b) :: m) = true)
    (hx : x ≤ a) : m.readByte x = Memory.blankByte := by
  obtain ⟨-, hlt, -⟩ := Memory.wf_cons.1 h
  exact Memory.readByte_eq_blank_of_below fun c hc => lt_of_le_of_lt hx (hlt c hc)

/-- A canonical list that starts at `a` reads as blank below `a`. -/
theorem Memory.readByte_blank_below_head {a x : Nat} {b : Byte} {m : Memory} (h : Memory.wf ((a, b) :: m) = true)
    (hx : x < a) : Memory.readByte ((a, b) :: m) x = Memory.blankByte := by
  rw [Memory.readByte_cons_of_ne b m (by omega)]
  exact Memory.readByte_tail_blank h (by omega)

/-- Canonical lists that read alike start at addresses that are not one below the other. -/
theorem Memory.head_le_of_readByte_eq {a a' : Nat} {b b' : Byte} {m m' : Memory}
    (h : Memory.wf ((a, b) :: m) = true) (h' : Memory.wf ((a', b') :: m') = true)
    (heq : ∀ x, Memory.readByte ((a, b) :: m) x = Memory.readByte ((a', b') :: m') x) : a' ≤ a := by
  obtain ⟨hb, -, -⟩ := Memory.wf_cons.1 h
  by_contra hlt
  have hblank := Memory.readByte_blank_below_head h' (x := a) (by omega)
  exact hb (by rw [← hblank, ← heq, Memory.readByte_cons_self])

/-- A canonical list that reads as blank everywhere is empty. -/
theorem Memory.eq_nil_of_readByte_blank {m : Memory} (h : m.wf = true)
    (hblank : ∀ x, m.readByte x = Memory.blankByte) : m = [] := by
  cases m with
  | nil => rfl
  | cons c m =>
    obtain ⟨hb, -, -⟩ := Memory.wf_cons.1 h
    exact absurd ((Memory.readByte_cons_self c.1 c.2 m).symm.trans (hblank c.1)) hb

/-- The canonical form is determined by what it reads: the first listed address is the least one that is not blank, and
the rest of the list reads as the whole but for that address. -/
theorem Memory.eq_of_readByte_eq {m m' : Memory} (h : m.wf = true) (h' : m'.wf = true)
    (heq : ∀ x, m.readByte x = m'.readByte x) : m = m' := by
  induction m generalizing m' with
  | nil => exact (Memory.eq_nil_of_readByte_blank h' fun x => (heq x).symm).symm
  | cons c m ih =>
    cases m' with
    | nil => exact Memory.eq_nil_of_readByte_blank h heq
    | cons c' m' =>
      obtain ⟨a, b⟩ := c
      obtain ⟨a', b'⟩ := c'
      obtain rfl : a = a' := le_antisymm (Memory.head_le_of_readByte_eq h' h fun x => (heq x).symm)
        (Memory.head_le_of_readByte_eq h h' heq)
      obtain rfl : b = b' := by simpa [Memory.readByte_cons_self] using heq a
      obtain ⟨-, -, hm⟩ := Memory.wf_cons.1 h
      obtain ⟨-, -, hm'⟩ := Memory.wf_cons.1 h'
      have htail : ∀ x, Memory.readByte m x = Memory.readByte m' x := fun x => by
        rcases le_or_gt x a with hx | hx
        · rw [Memory.readByte_tail_blank h hx, Memory.readByte_tail_blank h' hx]
        · simpa only [Memory.readByte_cons_of_ne _ _ hx.ne] using heq x
      rw [ih hm hm' htail]

/-- Settles O35, by induction on both lists. -/
theorem canonicalMemoriesAreEqualData : Obligations.CanonicalMemoriesAreEqualData :=
  fun _ _ h h' heq => Memory.eq_of_readByte_eq h h' heq

/-! Runs of bytes, and their value (R31, R32). -/

@[simp] theorem Memory.readBytes_one (m : Memory) (addr : Nat) : m.readBytes addr 1 = [m.readByte addr] := rfl

@[simp] theorem leBytes_one (v : Word) : leBytes v 1 = [v.extractLsb' 0 8] := rfl

@[simp] theorem leValue_singleton (b : Byte) : leValue [b] = b.toNat := rfl

/-- Every byte outside a stored run reads as before (R32). -/
theorem Memory.readByte_writeBytes_of_outside {m : Memory} (h : m.wf = true) {addr x : Nat} {bs : List Byte}
    (hx : x < addr ∨ addr + bs.length ≤ x) : (m.writeBytes addr bs).readByte x = m.readByte x := by
  rw [Memory.readByte_writeBytes h]
  split
  · rw [List.getElem?_eq_none (by omega), Option.getD_none]
  · rfl

/-- Byte `k` of a stored run reads back (R32). -/
theorem Memory.readByte_writeBytes_inside {m : Memory} (h : m.wf = true) (addr : Nat) {bs : List Byte} {k : Nat}
    (hk : k < bs.length) : (m.writeBytes addr bs).readByte (addr + k) = bs[k] := by
  simp [Memory.readByte_writeBytes h, hk]

/-- A stored run reads back whole (R31, R32). -/
theorem Memory.readBytes_writeBytes {m : Memory} (h : m.wf = true) (addr : Nat) (bs : List Byte) :
    (m.writeBytes addr bs).readBytes addr bs.length = bs :=
  List.ext_getElem (Memory.length_readBytes _ _ _) fun k _ hk => by
    simpa [Memory.readBytes] using Memory.readByte_writeBytes_inside h addr hk

/-- Storing one run after another is storing them one behind the other. -/
theorem Memory.writeBytes_append (m : Memory) (addr : Nat) (bs cs : List Byte) :
    m.writeBytes addr (bs ++ cs) = (m.writeBytes addr bs).writeBytes (addr + bs.length) cs := by
  induction bs generalizing m addr with
  | nil => rfl
  | cons b bs ih => simp [Memory.writeBytes, ih, Nat.add_assoc, Nat.add_comm 1]

/-- The value of a run that is followed by another one, which counts from the end of the first (R31). -/
theorem leValue_append (bs cs : List Byte) : leValue (bs ++ cs) = leValue bs + 2 ^ (8 * bs.length) * leValue cs := by
  induction bs with
  | nil => simp [leValue]
  | cons b bs ih =>
    have hpow : 2 ^ (8 * (b :: bs).length) = 256 * 2 ^ (8 * bs.length) := by
      rw [List.length_cons, Nat.mul_succ, Nat.pow_add, Nat.mul_comm]
    rw [List.cons_append, leValue, leValue, ih, hpow]
    ring

/-- The value of a run as the sum of R31. -/
theorem leValue_map_range (f : Nat → Byte) (n : Nat) :
    leValue ((List.range n).map f) = ∑ k ∈ Finset.range n, (f k).toNat * 2 ^ (8 * k) := by
  induction n with
  | zero => rfl
  | succ n ih =>
    simp [List.range_succ, leValue_append, ih, Finset.sum_range_succ, Nat.mul_comm (2 ^ (8 * n))]

/-- The low `n` bytes of a word have the value of its low `8n` bits (R32). -/
theorem leValue_leBytes (v : Word) (n : Nat) : leValue (leBytes v n) = v.toNat % 2 ^ (8 * n) := by
  induction n with
  | zero => simp [leBytes, leValue, Nat.mod_one]
  | succ n ih =>
    have hsplit : leBytes v (n + 1) = leBytes v n ++ [v.extractLsb' (8 * n) 8] := by
      simp [leBytes, List.range_succ]
    rw [hsplit, leValue_append, ih, length_leBytes, leValue_singleton, BitVec.extractLsb'_toNat,
      Nat.shiftRight_eq_div_pow, Nat.mul_succ, Nat.pow_add, Nat.mod_mul]

/-! Addresses near each other (R33): inside the buffer no sum of an address and an offset wraps. -/

/-- The buffer of admissible parameters lies inside the 64-bit addresses (R5). -/
theorem Params.memCapacity_lt {p : Params} (h : p.wf = true) : p.memCapacity < 2 ^ 64 :=
  of_decide_eq_true (Bool.and_eq_true_iff.1 h).2

theorem toNat_add_ofNat {a : Word} {k : Nat} (h : a.toNat + k < 2 ^ 64) :
    (a + BitVec.ofNat 64 k).toNat = a.toNat + k := by
  rw [BitVec.toNat_add, BitVec.toNat_ofNat, Nat.add_mod_mod, Nat.mod_eq_of_lt h]

/-! Accesses of mixed width (R37). -/

/-- A one-byte read answers the byte, zero-extended (R31, R110). -/
theorem memRead_one_eq_ok {s : State} {addr v : Word} :
    memRead addr 1 s = .ok v ↔
      addr.toNat + 1 ≤ s.params.memCapacity ∧ v = (s.mem.readByte addr.toNat).setWidth 64 := by
  rw [memRead_eq_ok, inBounds_iff, Memory.readBytes_one, leValue_singleton, BitVec.ofNat_toNat]

/-- What `n` bytes hold after a write of a word to them: its low `8n` bits (R31, R32). -/
theorem memRead_of_memWrite {s t : State} {a v : Word} {n : Nat} (hm : s.mem.wf = true)
    (h : memWrite a n v s = .ok t) : memRead a n t = .ok (BitVec.ofNat 64 (v.toNat % 2 ^ (8 * n))) := by
  obtain ⟨hb, rfl⟩ := memWrite_eq_ok.1 h
  refine memRead_eq_ok.2 ⟨hb, ?_⟩
  have hback := Memory.readBytes_writeBytes hm a.toNat (leBytes v n)
  rw [length_leBytes] at hback
  rw [State.setMem_mem, hback, leValue_leBytes]

/-- Each byte of a written word reads back alone (R37). -/
theorem memRead_one_of_memWrite {s t : State} {a v : Word} {n k : Nat} (hp : s.params.wf = true)
    (hm : s.mem.wf = true) (h : memWrite a n v s = .ok t) (hk : k < n) :
    memRead (a + BitVec.ofNat 64 k) 1 t = .ok ((v.extractLsb' (8 * k) 8).setWidth 64) := by
  obtain ⟨hb, rfl⟩ := memWrite_eq_ok.1 h
  have hcap := Params.memCapacity_lt hp
  have hin := inBounds_iff.1 hb
  have haddr : (a + BitVec.ofNat 64 k).toNat = a.toNat + k := toNat_add_ofNat (by omega)
  refine memRead_one_eq_ok.2 ⟨by rw [haddr, State.setMem_params]; omega, ?_⟩
  rw [haddr, State.setMem_mem, Memory.readByte_writeBytes_inside hm _ (by simpa using hk)]
  simp [leBytes]

/-- One-byte writes to neighbouring addresses store the run of their bytes (R37). -/
theorem state_of_byte_writes {st : Nat → State} {b : Nat → Word} {a : Word} {n : Nat} (hn : a.toNat + n ≤ 2 ^ 64)
    (h : ∀ k < n, memWrite (a + BitVec.ofNat 64 k) 1 (b k) (st k) = .ok (st (k + 1))) :
    st n = (st 0).setMem
      ((st 0).mem.writeBytes a.toNat ((List.range n).map fun k => (b k).extractLsb' 0 8)) := by
  induction n with
  | zero => rfl
  | succ n ih =>
    obtain ⟨-, hst⟩ := memWrite_eq_ok.1 (h n (by omega))
    rw [hst, toNat_add_ofNat (by omega), ih (by omega) fun k hk => h k (by omega), leBytes_one, List.range_succ,
      List.map_append, Memory.writeBytes_append]
    simp [State.setMem]

/-- Settles O34: a write stores the word's bytes as one run, and so do the one-byte writes; a stored run reads back byte by
byte and whole. -/
theorem mixedWidthAccessesAgree : Obligations.MixedWidthAccessesAgree := by
  refine ⟨fun s t a v hp hm h => ⟨?_, fun k hk => memRead_one_of_memWrite hp hm h hk⟩, fun st b a hp hm hb h => ?_⟩
  · simpa [Nat.mod_eq_of_lt v.isLt] using memRead_of_memWrite hm h
  · have hcap := Params.memCapacity_lt hp
    have hback := Memory.readBytes_writeBytes hm a.toNat ((List.range 8).map fun k => (b k).extractLsb' 0 8)
    rw [List.length_map, List.length_range] at hback
    rw [state_of_byte_writes (by omega) h, memRead_eq_ok, State.setMem_mem, hback, leValue_map_range]
    exact ⟨inBounds_iff.2 hb, rfl⟩

/-! The frame of the stores (R36, R201 item 4). -/

/-- An effect that changes memory stores to the bytes at the top of the operand stack. -/
theorem Effect.mem_cases {i : Instr} {s t : State} (h : Effect s i t) :
    t.mem = s.mem ∨ ∃ a bs, storedBytes i s = some (a, bs.length) ∧ t.mem = s.mem.writeBytes a bs := by
  cases h with
  | @store _ n addr value rest ops bounds form =>
    have hstored : storedBytes i s = some (addr.toNat, (leBytes value n).length) := by
      simp only [List.mem_cons, Prod.mk.injEq, List.not_mem_nil, or_false] at form
      rcases form with ⟨rfl, rfl⟩ | ⟨rfl, rfl⟩ <;> simp [storedBytes, ops]
    exact .inr ⟨_, _, hstored, rfl⟩
  | _ => exact .inl (by simp [apply_ite State.mem])

/-- Settles O32: a fault leaves memory, and an effect that does not leave it stores one run of bytes and keeps the
status. -/
theorem storesTouchOnlyTheirBytes : Obligations.StoresTouchOnlyTheirBytes := by
  intro i s t hm hexec
  rcases exec_cases hexec with ⟨e, rfl⟩ | heff
  · simp
  · rcases heff.mem_cases with hmem | ⟨a, bs, hstored, hmem⟩
    · simp [hmem]
    · have hi : i ≠ .halt := by rintro rfl; simp [storedBytes] at hstored
      refine ⟨fun x hx => ?_, fun hnone => ?_, fun hs ht => ?_⟩
      · rw [hmem, Memory.readByte_writeBytes_of_outside hm (hx a _ hstored)]
      · simp [hnone] at hstored
      · exact absurd (heff.status_eq hi ▸ ht) hs

/-! The bounds rule at the four accesses (R33). -/

/-- The loads and stores with the widths of their accesses (R110 to R113). -/
def loadsAndStores : List (Instr × Nat) := [(.read8, 1), (.write8, 1), (.read64, 8), (.write64, 8)]

/-- A load or a store is one of the two operand forms, run from its opcode word. -/
theorem exec_of_mem_loadsAndStores {i : Instr} {n : Nat} (form : (i, n) ∈ loadsAndStores) (s : State) :
    exec i s = finish s (load n (s.advance 1)) ∨ exec i s = finish s (store n (s.advance 1)) := by
  simp only [loadsAndStores, List.mem_cons, Prod.mk.injEq, List.not_mem_nil, or_false] at form
  rcases form with ⟨rfl, rfl⟩ | ⟨rfl, rfl⟩ | ⟨rfl, rfl⟩ | ⟨rfl, rfl⟩
  · exact .inl rfl
  · exact .inr rfl
  · exact .inl rfl
  · exact .inr rfl

section Access

variable {i : Instr} {n : Nat} {s : State} {addr value : Word} {rest : List Word}

/-- An access past the end of the buffer faults with its address, whatever the sum is as a word (R33). -/
theorem exec_eq_memOob_of_access (form : (i, n) ∈ loadsAndStores) (ops : s.ostack = addr :: value :: rest)
    (hout : s.params.memCapacity < addr.toNat + n) : exec i s = .next (takeFault s ⟨.memOob, addr⟩) := by
  have ops' : (s.advance 1).ostack = addr :: value :: rest := ops
  have hb : inBounds (s.advance 1) addr n = false := decide_eq_false (Nat.not_le.2 hout)
  rcases exec_of_mem_loadsAndStores form s with h | h
  · rw [h, load_eq_error.2 (.inr ⟨_, _, ops', .inl ⟨hb, rfl⟩⟩), finish_error]
  · rw [h, store_eq_error.2 (.inr ⟨_, _, _, ops', hb, rfl⟩), finish_error]

/-- An access inside the buffer completes (R33): a load puts its value where its address was. -/
theorem exec_completes_of_access (form : (i, n) ∈ loadsAndStores) (ops : s.ostack = addr :: value :: rest)
    (hfit : s.stacksFit = true) (hs : s.status = .running) (hin : addr.toNat + n ≤ s.params.memCapacity) :
    ∃ t, exec i s = .next t ∧ t.status = .running := by
  have ops' : (s.advance 1).ostack = addr :: value :: rest := ops
  have hb : inBounds (s.advance 1) addr n = true := inBounds_iff.2 hin
  rcases exec_of_mem_loadsAndStores form s with h | h
  · have hroom : (s.advance 1).params.ostackDepth ≠ some (value :: rest).length := fun hd => by
      have hlen := (State.stacksFit_iff.1 hfit).1 _ hd
      simp [ops] at hlen
    rw [h, load_eq_ok.2 ⟨_, _, ops', hb, hroom, rfl⟩]
    exact ⟨_, rfl, hs⟩
  · rw [h, store_eq_ok.2 ⟨_, _, _, ops', hb, rfl⟩]
    exact ⟨_, rfl, hs⟩

end Access

/-- Settles O33: the bounds rule of an access of width 1 and of width 8 at the capacity 65536. -/
theorem boundsAtTheDefaultCapacity : Obligations.BoundsAtTheDefaultCapacity := by
  intro s addr value rest hcap hfit hs ops
  have admits {i n} (form : (i, n) ∈ loadsAndStores) (h : addr.toNat + n ≤ 65536) :=
    exec_completes_of_access form ops hfit hs (hcap ▸ h)
  have refuses {i n} (form : (i, n) ∈ loadsAndStores) (h : 65536 < addr.toNat + n) :=
    exec_eq_memOob_of_access form ops (hcap ▸ h)
  have byte {i} (hi : i = .read8 ∨ i = .write8) : (i, 1) ∈ loadsAndStores := by
    rcases hi with rfl | rfl <;> simp [loadsAndStores]
  have word {i} (hi : i = .read64 ∨ i = .write64) : (i, 8) ∈ loadsAndStores := by
    rcases hi with rfl | rfl <;> simp [loadsAndStores]
  refine ⟨fun i hi => ⟨fun h => admits (byte hi) (by omega), fun h => refuses (byte hi) (by omega)⟩,
    fun i hi => ⟨fun h => admits (word hi) (by omega), fun h => refuses (word hi) (by omega)⟩, fun i hi h => ?_⟩
  rcases or_assoc.2 hi with hi | hi
  · exact refuses (byte hi) (by omega)
  · exact refuses (word hi) (by omega)

/-! Fetch and the decoder read the same words (R40, R51, R54). -/

/-- What the decoder answers (R52, R54): the opcode of the first word, and behind it the immediate word if the format has
one. -/
theorem decode_eq_ok {m : OpcodeMap} {ws rest : List Word} {i : Instr} :
    decode m ws = .ok (i, rest) ↔ ∃ w op, decodeOpcode m w = some op ∧
      ((op.hasImmediate = false ∧ i = op.instr 0 ∧ ws = w :: rest) ∨
        (op.hasImmediate = true ∧ ∃ imm, i = op.instr imm ∧ ws = w :: imm :: rest)) := by
  constructor
  · intro h
    cases ws with
    | nil => simp [decode] at h
    | cons w tail =>
      cases hop : decodeOpcode m w with
      | none => simp [decode, hop] at h
      | some op =>
        refine ⟨w, op, hop, ?_⟩
        cases himm : op.hasImmediate with
        | false => simpa [decode, hop, himm, eq_comm] using h
        | true =>
          cases tail with
          | nil => simp [decode, hop, himm] at h
          | cons imm tail => simpa [decode, hop, himm, eq_comm] using h
  · rintro ⟨w, op, hop, ⟨himm, rfl, rfl⟩ | ⟨himm, imm, rfl, rfl⟩⟩ <;> simp [decode, hop, himm]

/-- The decoder takes its words from the front: words behind a whole instruction are left over (R52). -/
theorem decode_append {m : OpcodeMap} {ws rest : List Word} {i : Instr} (h : decode m ws = .ok (i, rest))
    (more : List Word) : decode m (ws ++ more) = .ok (i, rest ++ more) := by
  obtain ⟨w, op, hop, ⟨himm, rfl, rfl⟩ | ⟨himm, imm, rfl, rfl⟩⟩ := decode_eq_ok.1 h
  · exact decode_eq_ok.2 ⟨w, op, hop, .inl ⟨himm, rfl, rfl⟩⟩
  · exact decode_eq_ok.2 ⟨w, op, hop, .inr ⟨himm, imm, rfl, rfl⟩⟩

/-- Fetch answers the instruction the decoder reads from the program at `ip`, as long as `ip + 1` does not wrap
(R40, R52, R54). -/
theorem fetchInstr_of_decode {s : State} {i : Instr} {rest : List Word} (hip : s.ip.toNat + 1 < 2 ^ 64)
    (h : decode s.params.opcodes (s.prog.drop s.ip.toNat) = .ok (i, rest)) : fetchInstr s = .ok i := by
  have word (k : Nat) : s.prog[s.ip.toNat + k]? = (s.prog.drop s.ip.toNat)[k]? := List.getElem?_drop.symm
  have next : (s.ip + 1).toNat = s.ip.toNat + 1 := toNat_add_ofNat hip
  obtain ⟨w, op, hop, ⟨himm, rfl, hws⟩ | ⟨himm, imm, rfl, hws⟩⟩ := decode_eq_ok.1 h
  all_goals have hw : fetchWord s s.ip = .ok w := fetchWord_eq_ok.2 ((word 0).trans (by rw [hws]; rfl))
  · simp [fetchInstr, hw, hop, himm]
  · have himmw : fetchWord s (s.ip + 1) = .ok imm :=
      fetchWord_eq_ok.2 (by rw [next, word 1, hws]; rfl)
    simp only [fetchInstr, hw, hop, himm, himmw, ok_bind, pure_eq_ok, if_true]

/-- A running engine executes the instruction it fetched (R191). -/
theorem step_eq_exec {s : State} {i : Instr} (hs : s.status = .running) (h : fetchInstr s = .ok i) :
    step s = exec i s := by
  simp [step, hs, h]

/-! The instruction the host places (logs 1, 15). -/

/-- From their address on, the placed words come first, then what the program held behind them. -/
theorem drop_placeWords (prog : List Word) (a : Nat) (ws : List Word) :
    (placeWords prog a ws).drop a = ws ++ prog.drop (a + ws.length) := by
  have hlen : (prog.take a ++ List.replicate (a - prog.length) 0).length = a := by
    simp only [List.length_append, List.length_take, List.length_replicate]
    omega
  rw [placeWords, List.append_assoc, List.drop_left' hlen]

theorem decodeTableWord_eq_some {nbits w : Nat} {i : Instr} :
    decodeTableWord nbits w = some i ↔ ∃ rest, decode OpcodeMap.dense (tableWords nbits w) = .ok (i, rest) := by
  unfold decodeTableWord
  split <;> rename_i h <;> simp [h]

/-- Settles O43: the decoder reads the placed words at the front of the program from `ip` on, so fetch does. -/
theorem placedWordIsTheNextInstruction : Obligations.PlacedWordIsTheNextInstruction := by
  intro s nbits w i hmap hip hdec
  obtain ⟨rest, hrest⟩ := decodeTableWord_eq_some.1 hdec
  have hfront : decode (s.withFetchWord nbits w).params.opcodes
      ((s.withFetchWord nbits w).prog.drop (s.withFetchWord nbits w).ip.toNat) =
        .ok (i, rest ++ s.prog.drop (s.ip.toNat + (tableWords nbits w).length)) := by
    simp only [State.withFetchWord, hmap, drop_placeWords]
    exact decode_append hrest _
  exact step_eq_exec rfl (fetchInstr_of_decode (Nat.lt_of_succ_lt hip) hfront)

end Sys2Proof.Machine
end

section
/-! PROOFS. The encoding (30_encoding): the decoder's comparison (R54, R56), the round trip of decode and encode (R51, R52),
programs read back (R76), the assembler's expansions run (R68), and its two passes resolved (R66 to R71). -/

namespace Sys2Proof.Machine

/-! The opcode word (R54, R56). -/

/-- A word is illegal exactly if the map does not contain it (R56). -/
theorem decodeOpcode_eq_none {m : OpcodeMap} {w : Word} : decodeOpcode m w = none ↔ ∀ op, m.value op ≠ w := by
  simp [decodeOpcode, Opcode.mem_all]

/-- Under an injective map the opcode found is the only one of its value (R54). -/
theorem decodeOpcode_eq_some {m : OpcodeMap} {w : Word} {op : Opcode} (hm : m.wf = true) :
    decodeOpcode m w = some op ↔ m.value op = w := by
  refine ⟨value_of_decodeOpcode, fun hw => ?_⟩
  cases hfound : decodeOpcode m w with
  | none => exact absurd hw (decodeOpcode_eq_none.1 hfound op)
  | some op' => rw [OpcodeMap.value_injective hm ((value_of_decodeOpcode hfound).trans hw.symm)]

/-- The default numbering fills the numbers 0 to 23 (R53). -/
theorem exists_dense_value_iff {w : Word} : (∃ op, OpcodeMap.dense.value op = w) ↔ w.toNat ≤ 23 := by
  constructor
  · rintro ⟨op, rfl⟩
    cases op <;> decide
  · intro hw
    have table : ∀ k : Fin 24, ∃ op ∈ Opcode.all, OpcodeMap.dense.value op = BitVec.ofNat 64 k := by decide
    obtain ⟨op, -, hop⟩ := table ⟨w.toNat, by omega⟩
    exact ⟨op, by simpa using hop⟩

/-- Settles O17: the comparison at any map, and the default numbering's range. -/
theorem decoderComparesTheWholeWord : Obligations.DecoderComparesTheWholeWord := by
  refine ⟨fun _ _ _ hm => decodeOpcode_eq_some hm, fun _ _ => decodeOpcode_eq_none, fun w => ?_⟩
  rw [← exists_dense_value_iff, Option.isSome_iff_ne_none, ne_eq, decodeOpcode_eq_none]
  simp

/-! Decode and encode (R51, R52). -/

/-- Every instruction is its opcode with an immediate word, which format O ignores (R51). -/
theorem exists_eq_instr (i : Instr) : ∃ (op : Opcode) (imm : Word), i = op.instr imm := by
  refine ⟨i.opcode, i.immediates.headD 0, ?_⟩
  cases i <;> rfl

/-- Format O does not look at the word behind the opcode (R51). -/
theorem instr_eq_of_not_hasImmediate {op : Opcode} (h : op.hasImmediate = false) (a b : Word) :
    op.instr a = op.instr b := by
  cases op with
  | push => cases h
  | dup => cases h
  | _ => rfl

/-- The encoding in the two formats (R51). -/
theorem encode_instr (m : OpcodeMap) (op : Opcode) (imm : Word) :
    encode m (op.instr imm) = m.value op :: if op.hasImmediate then [imm] else [] := by
  cases op <;> rfl

/-- The opcode alone decides the length of the encoding (R52). -/
theorem length_encode (m : OpcodeMap) (i : Instr) : (encode m i).length = i.words := by
  obtain ⟨op, imm, rfl⟩ := exists_eq_instr i
  rw [encode_instr, Instr.words, Instr.opcode_instr]
  split <;> rfl

/-- Under an injective map the words the decoder reads an instruction from are its encoding (R51, R52, R54). -/
theorem decode_eq_ok_iff_encode {m : OpcodeMap} {i : Instr} {ws rest : List Word} (hm : m.wf = true) :
    decode m ws = .ok (i, rest) ↔ ws = encode m i ++ rest := by
  rw [decode_eq_ok]
  constructor
  · rintro ⟨w, op, hop, ⟨himm, rfl, rfl⟩ | ⟨himm, imm, rfl, rfl⟩⟩ <;>
      simp [encode_instr, himm, value_of_decodeOpcode hop]
  · rintro rfl
    obtain ⟨op, imm, rfl⟩ := exists_eq_instr i
    refine ⟨m.value op, op, (decodeOpcode_eq_some hm).2 rfl, ?_⟩
    cases himm : op.hasImmediate with
    | false => exact .inl ⟨rfl, instr_eq_of_not_hasImmediate himm _ _, by simp [encode_instr, himm]⟩
    | true => exact .inr ⟨rfl, imm, rfl, by simp [encode_instr, himm]⟩

/-- Settles O19. -/
theorem decodeAndEncodeAgree : Obligations.DecodeAndEncodeAgree :=
  fun _ _ _ _ hm => decode_eq_ok_iff_encode hm

/-- Settles O18: eight of the word lists are encodings, and the last word has a bit above those of `add`. -/
theorem tableWordsDecode : Obligations.TableWordsDecode := by
  have reads {i : Instr} {ws rest : List Word} (h : ws = encode OpcodeMap.dense i ++ rest) :
      decode OpcodeMap.dense ws = .ok (i, rest) := (decode_eq_ok_iff_encode OpcodeMap.dense_wf).2 h
  exact ⟨reads rfl, reads rfl, reads rfl, reads rfl, reads rfl, reads rfl, reads rfl, reads rfl, rfl⟩

/-! Programs read back (R76). -/

/-- A listing of encodings one after another gives their instructions, one for each step of the fuel (R76). -/
theorem disassemble_flatMap_encode {m : OpcodeMap} (hm : m.wf = true) (is : List Instr) :
    disassemble m is.length (is.flatMap (encode m)) = is.map fun i => (mnemonicOf i.opcode, i.immediates) := by
  induction is with
  | nil => rfl
  | cons i is ih =>
    have hfront : decode m (encode m i ++ is.flatMap (encode m)) = .ok (i, is.flatMap (encode m)) :=
      (decode_eq_ok_iff_encode hm).2 rfl
    simp [disassemble, hfront, ih]

/-- Settles O20. -/
theorem programsReadBack : Obligations.ProgramsReadBack := by
  intro m is hm
  refine ⟨disassemble_flatMap_encode hm is, ?_⟩
  rw [List.length_flatMap, funext (length_encode m)]

/-! The expansions of the jump statements, run (R68). -/

section Expansion

variable {s t : State} {i : Instr} {target : Word → Word → Word} {v cond : Word} {st rest : List Word}

/-- An unconditional transfer with its operand on the stack completes (R132, R135). -/
theorem exec_eq_next_of_transfer (form : i ∈ [Instr.jp, .jr]) (fn : targetFn i = some target)
    (ops : s.ostack = v :: st) :
    exec i s = .next (((s.advance 1).setOstack st).setIp (target (s.ip + 1) v)) := by
  have hexec : exec i s = finish s (transfer target (s.advance 1)) := by
    simp only [List.mem_cons, List.not_mem_nil, or_false] at form
    rcases form with rfl | rfl <;> cases fn <;> rfl
  have ops' : (s.advance 1).ostack = v :: st := ops
  rw [hexec, transfer_eq_ok.2 ⟨v, st, ops', rfl⟩]
  rfl

/-- A conditional transfer with its operands on the stack completes, taken or not (R133, R136). -/
theorem exec_eq_next_of_transferIf (form : i ∈ [Instr.jpc, .jrc]) (fn : targetFn i = some target)
    (ops : s.ostack = v :: cond :: st) :
    exec i s = .next (((s.advance 1).setOstack st).setIp (if cond = 0 then s.ip + 1 else target (s.ip + 1) v)) := by
  have hexec : exec i s = finish s (transferIf target (s.advance 1)) := by
    simp only [List.mem_cons, List.not_mem_nil, or_false] at form
    rcases form with rfl | rfl <;> cases fn <;> rfl
  have ops' : (s.advance 1).ostack = v :: cond :: st := ops
  rw [hexec, transferIf_eq_ok.2 ⟨v, cond, st, ops', rfl⟩, finish_ok]
  by_cases hcond : cond = 0
  · subst hcond
    rfl
  · have htrue : condTrue cond = true := decide_eq_true hcond
    simp only [htrue, hcond, if_true, if_false]
    rfl

/-- A running engine executes the instruction encoded at `ip` (R54, R191). -/
theorem step_eq_exec_of_encode (hm : s.params.opcodes.wf = true) (hs : s.status = .running)
    (hip : s.ip.toNat + 1 < 2 ^ 64)
    (hprog : s.prog.drop s.ip.toNat = encode s.params.opcodes i ++ rest) : step s = exec i s :=
  step_eq_exec hs (fetchInstr_of_decode hip ((decode_eq_ok_iff_encode hm).2 hprog))

/-- A `push` and one instruction behind it, run: the second instruction starts with the immediate on top (R68, R80). -/
theorem run_two_of_push (hinv : Inv s) (hs : s.status = .running)
    (room : s.params.ostackDepth ≠ some s.ostack.length)
    (hprog : s.prog.drop s.ip.toNat = encode s.params.opcodes (.push v) ++ (encode s.params.opcodes i ++ rest))
    (hexec : exec i ((s.advance 2).setOstack (v :: s.ostack)) = .next t) : run 2 s = .next t := by
  have hlen : s.ip.toNat + 3 ≤ s.prog.length := by
    have := congrArg List.length hprog
    simp [encode, Instr.immediates] at this
    omega
  have hbound := hinv.progLength
  have hip : (s.ip + BitVec.ofNat 64 2).toNat = s.ip.toNat + 2 := toNat_add_ofNat (by omega)
  have hfirst : step s = .next ((s.advance 2).setOstack (v :: s.ostack)) := by
    rw [step_eq_exec_of_encode hinv.opcodes hs (by omega) hprog]
    exact congrArg (finish s) ((push_eq_ok (s := s.advance 2)).2 ⟨room, rfl⟩)
  have hrest : s.prog.drop (s.ip + BitVec.ofNat 64 2).toNat = encode s.params.opcodes i ++ rest := by
    rw [hip, ← List.drop_drop, hprog]
    rfl
  have hsecond : step ((s.advance 2).setOstack (v :: s.ostack)) = .next t :=
    (step_eq_exec_of_encode (s := (s.advance 2).setOstack _) hinv.opcodes hs (by simp [hip]; omega) hrest).trans hexec
  exact (run_succ_eq_next hs).2
    ⟨_, hfirst, (run_succ_eq_next (s := (s.advance 2).setOstack _) hs).2 ⟨_, hsecond, rfl⟩⟩

/-- The expansion of `jp L` and `jr n`: the operand stack is as before, and the target counts from the word after the
expansion (R68). -/
theorem run_jump_expansion (form : i ∈ [Instr.jp, .jr]) (fn : targetFn i = some target) (hinv : Inv s)
    (hs : s.status = .running) (room : s.params.ostackDepth ≠ some s.ostack.length)
    (hprog : s.prog.drop s.ip.toNat = encode s.params.opcodes (.push v) ++ (encode s.params.opcodes i ++ rest)) :
    run 2 s = .next { s with ip := target (s.ip + 3) v } := by
  have hip : s.ip + 2 + 1 = s.ip + 3 := BitVec.add_assoc ..
  rw [run_two_of_push hinv hs room hprog (exec_eq_next_of_transfer form fn rfl), ← hip]
  rfl

/-- The expansion of `jpc L` and `jrc n` takes the condition off the operand stack (R68). -/
theorem run_branch_expansion (form : i ∈ [Instr.jpc, .jrc]) (fn : targetFn i = some target) (hinv : Inv s)
    (hs : s.status = .running) (room : s.params.ostackDepth ≠ some s.ostack.length) (ops : s.ostack = cond :: st)
    (hprog : s.prog.drop s.ip.toNat = encode s.params.opcodes (.push v) ++ (encode s.params.opcodes i ++ rest)) :
    run 2 s = .next { s with ip := if cond = 0 then s.ip + 3 else target (s.ip + 3) v, ostack := st } := by
  have hip : s.ip + 2 + 1 = s.ip + 3 := BitVec.add_assoc ..
  rw [run_two_of_push hinv hs room hprog (exec_eq_next_of_transferIf form fn (congrArg (v :: ·) ops)), ← hip]
  rfl

end Expansion

/-- Settles O44: each statement is a `push` and one of the two transfer forms. -/
theorem jumpStatementsExpandRight : Obligations.JumpStatementsExpandRight :=
  ⟨fun _ _ _ hinv hs room hprog => run_jump_expansion (i := .jp) (by simp) rfl hinv hs room hprog,
    fun _ _ _ _ _ hinv hs room ops hprog => run_branch_expansion (i := .jpc) (by simp) rfl hinv hs room ops hprog,
    fun _ _ _ hinv hs room hprog => run_jump_expansion (i := .jr) (by simp) rfl hinv hs room hprog,
    fun _ _ _ _ _ hinv hs room ops hprog => run_branch_expansion (i := .jrc) (by simp) rfl hinv hs room ops hprog⟩

/-! The two passes of the assembler (R66 to R71). -/

/-- The label a statement at the address `n` defines (R70). -/
def stmtLabels (n : Nat) : Stmt → List (List Char × Nat)
  | .label name => [(name, n)]
  | .plain _ | .numeric _ _ | .ref _ _ => []

/-- The reference a statement at the address `n` leaves to the second pass (R71). -/
def stmtRefs (n : Nat) (l : Located) : List LabelRef :=
  match l.stmt with
  | .ref _ name => [⟨n + 1, name, l.operandPos⟩]
  | .label _ | .plain _ | .numeric _ _ => []

/-- The references of statements one after another from the address `n` on (R71). -/
def refsFrom (m : OpcodeMap) : Nat → List Located → List LabelRef
  | _, [] => []
  | n, l :: ls => stmtRefs n l ++ refsFrom m (n + (stmtWords m l.stmt).length) ls

/-- The words of a statement with the addresses of the labels known (R67, R68). -/
def resolvedWords (m : OpcodeMap) (addr : List Char → Word) : Stmt → List Word
  | .ref op name => [m.push, addr name, m.value op]
  | .label _ => []
  | .plain op => [m.value op]
  | .numeric op n => if op.hasImmediate then [m.value op, n] else [m.push, n, m.value op]

/-- The address a label table gives a name, 0 if it has none of that name. -/
def tableAddr (labels : List (List Char × Nat)) (name : List Char) : Word :=
  (labelAddress labels name).elim 0 (BitVec.ofNat 64)

/-- Only a reference differs between the two passes, and it keeps its length (R71). -/
theorem length_resolvedWords (m : OpcodeMap) (addr : List Char → Word) (st : Stmt) :
    (resolvedWords m addr st).length = (stmtWords m st).length := by
  cases st <;> rfl

/-- One statement of the first pass (R66, R70): it appends its words, its label, which must be new, and its reference. -/
theorem emitStmt_eq_ok {m : OpcodeMap} {e e' : Emission} {l : Located} :
    emitStmt m e l = .ok e' ↔ (∀ name, l.stmt = .label name → labelAddress e.labels name = none) ∧
      e' = ⟨e.words ++ stmtWords m l.stmt, e.labels ++ stmtLabels e.words.length l.stmt,
        e.refs ++ stmtRefs e.words.length l⟩ := by
  unfold emitStmt stmtRefs
  cases hst : l.stmt with
  | label name =>
    cases hname : labelAddress e.labels name <;> simp [hname, stmtLabels, eq_comm]
  | plain op => simp [stmtLabels, eq_comm]
  | numeric op n => simp [stmtLabels, eq_comm]
  | ref op name => simp [stmtLabels, eq_comm]

theorem emitAll_cons_eq_ok {m : OpcodeMap} {e e' : Emission} {l : Located} {ls : List Located} :
    emitAll m e (l :: ls) = .ok e' ↔ ∃ e₁, emitStmt m e l = .ok e₁ ∧ emitAll m e₁ ls = .ok e' := by
  cases h : emitStmt m e l <;> simp [emitAll, h, bind, Except.bind]

/-- The first pass over a text in two parts (R66). -/
theorem emitAll_append_eq_ok {m : OpcodeMap} {e e' : Emission} {xs ys : List Located} :
    emitAll m e (xs ++ ys) = .ok e' ↔ ∃ e₁, emitAll m e xs = .ok e₁ ∧ emitAll m e₁ ys = .ok e' := by
  induction xs generalizing e with
  | nil => simp [emitAll]
  | cons x xs ih =>
    simp only [List.cons_append, emitAll_cons_eq_ok, ih]
    constructor
    · rintro ⟨e₁, hx, e₂, hxs, hys⟩
      exact ⟨e₂, ⟨e₁, hx, hxs⟩, hys⟩
    · rintro ⟨e₂, ⟨e₁, hx, hxs⟩, hys⟩
      exact ⟨e₁, hx, e₂, hxs, hys⟩

/-- The words and the references of the first pass (R66, R71). -/
theorem words_refs_of_emitAll {m : OpcodeMap} {e e' : Emission} {ls : List Located} (h : emitAll m e ls = .ok e') :
    e'.words = e.words ++ ls.flatMap (fun l => stmtWords m l.stmt) ∧
      e'.refs = e.refs ++ refsFrom m e.words.length ls := by
  induction ls generalizing e with
  | nil =>
    cases h
    simp [refsFrom]
  | cons l ls ih =>
    obtain ⟨e₁, hl, hls⟩ := emitAll_cons_eq_ok.1 h
    obtain ⟨-, rfl⟩ := emitStmt_eq_ok.1 hl
    obtain ⟨hwords, hrefs⟩ := ih hls
    exact ⟨by simp [hwords], by simp [hrefs, refsFrom]⟩

/-- A label keeps its address through the rest of the first pass: entries are appended, and the first one of a name is
read (R70). -/
theorem labelAddress_of_emitAll {m : OpcodeMap} {e e' : Emission} {ls : List Located} {name : List Char} {a : Nat}
    (h : emitAll m e ls = .ok e') (ha : labelAddress e.labels name = some a) :
    labelAddress e'.labels name = some a := by
  induction ls generalizing e with
  | nil =>
    cases h
    exact ha
  | cons l ls ih =>
    obtain ⟨e₁, hl, hls⟩ := emitAll_cons_eq_ok.1 h
    obtain ⟨-, rfl⟩ := emitStmt_eq_ok.1 hl
    refine ih hls ?_
    unfold labelAddress at ha ⊢
    simp [List.lookup_append, ha]

/-- The table gives a label the number of words before it (R70). -/
theorem labelAddress_eq_length {m : OpcodeMap} {e : Emission} {before after : List Located} {l : Located}
    {name : List Char} (h : emitAll m ⟨[], [], []⟩ (before ++ l :: after) = .ok e) (hl : l.stmt = .label name) :
    labelAddress e.labels name = some (before.map fun l => (stmtWords m l.stmt).length).sum := by
  obtain ⟨e₁, hbefore, hrest⟩ := emitAll_append_eq_ok.1 h
  obtain ⟨e₂, hstmt, hafter⟩ := emitAll_cons_eq_ok.1 hrest
  obtain ⟨hnew, rfl⟩ := emitStmt_eq_ok.1 hstmt
  obtain ⟨hwords, -⟩ := words_refs_of_emitAll hbefore
  refine labelAddress_of_emitAll hafter ?_
  have hnone := hnew name hl
  unfold labelAddress at hnone ⊢
  simp [List.lookup_append, hnone, hl, stmtLabels, hwords, List.length_flatMap]

/-- The second pass at one statement: its reference, if it has one, replaces its placeholder and no other word (R71). -/
theorem resolve_stmtRefs {m : OpcodeMap} {labels : List (List Char × Nat)} {pre post ws : List Word} {l : Located}
    {rs : List LabelRef}
    (h : resolve labels (pre ++ (stmtWords m l.stmt ++ post)) (stmtRefs pre.length l ++ rs) = .ok ws) :
    resolve labels (pre ++ (resolvedWords m (tableAddr labels) l.stmt ++ post)) rs = .ok ws := by
  unfold stmtRefs at h
  cases hst : l.stmt with
  | ref op name =>
    cases ha : labelAddress labels name with
    | none => simp [hst, resolve, ha] at h
    | some a => simpa [hst, resolve, ha, stmtWords, resolvedWords, tableAddr] using h
  | label name => simpa [hst, stmtWords, resolvedWords] using h
  | plain op => simpa [hst, stmtWords, resolvedWords] using h
  | numeric op n => simpa [hst, stmtWords, resolvedWords] using h

/-- The second pass over the words of the first gives the statements' resolved words (R71). -/
theorem eq_of_resolve_refsFrom {m : OpcodeMap} {labels : List (List Char × Nat)} {pre ws : List Word}
    {ls : List Located}
    (h : resolve labels (pre ++ ls.flatMap (fun l => stmtWords m l.stmt)) (refsFrom m pre.length ls) = .ok ws) :
    ws = pre ++ ls.flatMap (fun l => resolvedWords m (tableAddr labels) l.stmt) := by
  induction ls generalizing pre with
  | nil =>
    cases h
    rfl
  | cons l ls ih =>
    have hl := resolve_stmtRefs h
    rw [← List.append_assoc] at hl
    have hws := ih (pre := pre ++ resolvedWords m (tableAddr labels) l.stmt)
      (by rwa [List.length_append, length_resolvedWords])
    rw [hws, List.append_assoc, List.flatMap_cons]

theorem assembleStmts_eq_ok {m : OpcodeMap} {ls : List Located} {ws : List Word} :
    assembleStmts m ls = .ok ws ↔
      ∃ e, emitAll m ⟨[], [], []⟩ ls = .ok e ∧ resolve e.labels e.words e.refs = .ok ws := by
  cases h : emitAll m ⟨[], [], []⟩ ls <;> simp [assembleStmts, h, bind, Except.bind]

/-- Settles O45: the table of the first pass, read by the second. -/
theorem assemblerResolvesLabels : Obligations.AssemblerResolvesLabels := by
  intro m ls ws h
  obtain ⟨e, hemit, hresolve⟩ := assembleStmts_eq_ok.1 h
  obtain ⟨hwords, hrefs⟩ := words_refs_of_emitAll hemit
  rw [hwords, hrefs] at hresolve
  refine ⟨tableAddr e.labels, ?_, fun before after l name hls hl => ?_⟩
  · rw [eq_of_resolve_refsFrom (pre := []) hresolve, List.nil_append, List.flatMap_def]
    refine congrArg List.flatten (List.map_congr_left fun l _ => ?_)
    cases l.stmt <;> rfl
  · subst hls
    simp [tableAddr, labelAddress_eq_length hemit hl]

end Sys2Proof.Machine
end

section
/-! PROOFS. The stack instructions (40_stack_ops): `push` and `dup` at a step, where their immediate is fetched (R40, R52),
and the meanings of `push` (R80), `dup` (R81) and `swap` (R82). -/

namespace Sys2Proof.Machine

/-! The immediate fetch (R40, R52), for both opcodes of format OI. -/

section ImmediateFetch

variable {s : State} {op : Opcode}

/-- The address behind a word of the program does not wrap (R5, D27). -/
theorem toNat_ip_add_one {w : Word} (hinv : Inv s) (hw : s.prog[s.ip.toNat]? = some w) :
    (s.ip + 1).toNat = s.ip.toNat + 1 := by
  have hlt := (List.getElem?_eq_some_iff.1 hw).1
  have hlen := hinv.progLength
  exact toNat_add_ofNat (k := 1) (by omega)

/-- Behind an opcode word of format OI the fetch of the instruction is the fetch of its immediate (R52). -/
theorem fetchInstr_of_hasImmediate (hinv : Inv s) (himm : op.hasImmediate = true)
    (hop : s.prog[s.ip.toNat]? = some (s.params.opcodes.value op)) :
    fetchInstr s = fetchWord s (s.ip + 1) >>= fun imm => .ok (op.instr imm) := by
  have hword : fetchWord s s.ip = .ok (s.params.opcodes.value op) := fetchWord_eq_ok.2 hop
  have hdec : decodeOpcode s.params.opcodes (s.params.opcodes.value op) = some op :=
    (decodeOpcode_eq_some hinv.opcodes).2 rfl
  simp only [fetchInstr, hword, hdec, himm, ok_bind, if_true, pure_eq_ok]

/-- A running engine takes the fault its fetch raised (R169, R191). -/
theorem step_eq_takeFault {e : Raise} (hs : s.status = .running) (h : fetchInstr s = .error e) :
    step s = .next (takeFault s e) := by
  simp [step, hs, h]

/-- A step at an opcode of format OI executes it with the word behind it; where the program ends before that word, the step
raises at that word's fetch (R40, R52, R80, R81). -/
theorem step_of_hasImmediate (hinv : Inv s) (hs : s.status = .running) (himm : op.hasImmediate = true)
    (hop : s.prog[s.ip.toNat]? = some (s.params.opcodes.value op)) (imm : Word) :
    (s.prog[s.ip.toNat + 1]? = some imm → step s = exec (op.instr imm) s) ∧
      (s.prog.length = s.ip.toNat + 1 → step s = .next (takeFault s ⟨.fetchOob, s.ip + 1⟩)) := by
  have hnext := toNat_ip_add_one hinv hop
  have hfetch := fetchInstr_of_hasImmediate hinv himm hop
  constructor
  · intro hword
    have hok : fetchWord s (s.ip + 1) = .ok imm := fetchWord_eq_ok.2 (hnext ▸ hword)
    exact step_eq_exec hs (hfetch.trans (by rw [hok, ok_bind]))
  · intro hend
    have herr : fetchWord s (s.ip + 1) = .error ⟨.fetchOob, s.ip + 1⟩ :=
      fetchWord_eq_error.2 ⟨by omega, rfl⟩
    exact step_eq_takeFault hs (hfetch.trans (by rw [herr, error_bind]))

end ImmediateFetch

/-! The meanings (R80 to R82). -/

section Meanings

variable {s : State} {v n a b : Word} {rest : List Word}

theorem exec_push (s : State) (v : Word) : exec (.push v) s = finish s (push v (s.advance 2)) := rfl

theorem exec_dup (s : State) (n : Word) :
    exec (.dup n) s = finish s (peek n (s.advance 2) >>= fun v => push v (s.advance 2)) := rfl

theorem exec_swap (s : State) :
    exec .swap s = finish s (pop2 (s.advance 1) >>= fun p => push p.1 p.2.2 >>= push p.2.1) := rfl

/-- `push` completes on a stack with room (R80). -/
theorem exec_push_of_room (room : s.params.ostackDepth ≠ some s.ostack.length) :
    exec (.push v) s = .next { s with ip := s.ip + 2, ostack := v :: s.ostack } := by
  rw [exec_push, (push_eq_ok (s := s.advance 2)).2 ⟨room, rfl⟩]
  rfl

/-- `push` overflows a full finite stack (R80). -/
theorem exec_push_of_full (full : s.params.ostackDepth = some s.ostack.length) :
    exec (.push v) s = .next (takeFault s ⟨.ostackOverflow, 0⟩) := by
  rw [exec_push, (push_eq_error (s := s.advance 2)).2 ⟨full, rfl⟩, finish_error]

/-- An admitted `dup` is the `push` of the value it finds, overflow included (R81). -/
theorem exec_dup_eq_exec_push (hv : s.ostack[n.toNat]? = some v) : exec (.dup n) s = exec (.push v) s := by
  rw [exec_dup, (peek_eq_ok (s := s.advance 2)).2 hv, ok_bind, exec_push]

/-- `dup` underflows on an offset not below the depth, whether or not the stack has room (R81, D26). -/
theorem exec_dup_of_length_le (hn : s.ostack.length ≤ n.toNat) :
    exec (.dup n) s = .next (takeFault s ⟨.ostackUnderflow, 0⟩) := by
  rw [exec_dup, (peek_eq_error (s := s.advance 2)).2 ⟨hn, rfl⟩, error_bind, finish_error]

/-- A stack that fits its depth has room again once values are popped off it (R5, R13). -/
theorem State.room_of_length_lt {k : Nat} (hfit : s.stacksFit = true) (hk : k < s.ostack.length) :
    s.params.ostackDepth ≠ some k :=
  fun hd => absurd ((State.stacksFit_iff.1 hfit).1 k hd) (by omega)

/-- `swap` puts back as many values as it popped, so it never overflows (R82). -/
theorem exec_swap_of_two (hfit : s.stacksFit = true) (ops : s.ostack = a :: b :: rest) :
    exec .swap s = .next { s with ip := s.ip + 1, ostack := b :: a :: rest } := by
  have room {k : Nat} (hk : k < rest.length + 2) : s.params.ostackDepth ≠ some k :=
    State.room_of_length_lt hfit (by rw [ops]; exact hk)
  have hpop : pop2 (s.advance 1) = .ok (a, b, (s.advance 1).setOstack rest) := pop2_eq_ok.2 ⟨rest, ops, rfl⟩
  have hpushA : push a ((s.advance 1).setOstack rest) = .ok ((s.advance 1).setOstack (a :: rest)) :=
    push_eq_ok.2 ⟨room (k := rest.length) (by omega), rfl⟩
  have hpushB : push b ((s.advance 1).setOstack (a :: rest)) = .ok ((s.advance 1).setOstack (b :: a :: rest)) :=
    push_eq_ok.2 ⟨room (k := rest.length + 1) (by omega), rfl⟩
  rw [exec_swap, hpop, ok_bind, hpushA, ok_bind, hpushB]
  rfl

/-- `swap` underflows on fewer than two values (R82). -/
theorem exec_swap_of_length_lt (h : s.ostack.length < 2) :
    exec .swap s = .next (takeFault s ⟨.ostackUnderflow, 0⟩) := by
  rw [exec_swap, (pop2_eq_error (s := s.advance 1)).2 ⟨h, rfl⟩, error_bind, finish_error]

end Meanings

/-- Settles O1: the two outcomes of the meaning, and the immediate fetch of format OI at `push`. -/
theorem pushPushesItsImmediate : Obligations.PushPushesItsImmediate := fun _ imm =>
  ⟨exec_push_of_room, exec_push_of_full,
    fun hinv hs hop => step_of_hasImmediate (op := .push) hinv hs rfl hop imm, rfl⟩

/-- Settles O2: `dup` is the `push` of the value it finds, underflow comes first, and the immediate is fetched as that of
`push` is. -/
theorem dupCopiesTheValueBelowTop : Obligations.DupCopiesTheValueBelowTop := by
  intro s n
  refine ⟨fun v hv room => ?_, exec_dup_of_length_le, fun hn full => ?_,
    fun hinv hs hop => step_of_hasImmediate (op := .dup) hinv hs rfl hop n, rfl⟩
  · rw [exec_dup_eq_exec_push hv, exec_push_of_room room]
  · rw [exec_dup_eq_exec_push (List.getElem?_eq_getElem hn), exec_push_of_full full]

/-- Settles O3. -/
theorem swapExchangesTheTopTwo : Obligations.SwapExchangesTheTopTwo :=
  ⟨fun _ _ _ _ hfit ops => exec_swap_of_two hfit ops, fun _ h => exec_swap_of_length_lt h, rfl⟩

end Sys2Proof.Machine
end

section
/-! PROOFS. The arithmetic instructions (41_arithmetic): the operand form of the arithmetic and comparison instructions, run
from its opcode word (R93), the reduction modulo `2^64`, and the meanings of `add` (R90), `sub` (R91) and `multu` (R92). -/

namespace Sys2Proof.Machine

/-! The form `a, b -> f a b` at the instructions that have it (R93). -/

section BinaryForm

variable {s : State} {i : Instr} {f : Word → Word → Word} {a b : Word} {rest : List Word}

/-- An arithmetic or comparison instruction is the two-operand form of its function, run from its opcode word. -/
theorem exec_of_binaryFn (form : binaryFn i = some f) (s : State) :
    exec i s = finish s (binary f (s.advance 1)) := by
  cases i with
  | add | sub | multu | gt | lt | eq | ge | le => cases form; rfl
  | _ => cases form

/-- With two operands the form completes: it puts back fewer values than it popped, so it never overflows (R93). -/
theorem exec_binary_of_two (form : binaryFn i = some f) (hfit : s.stacksFit = true) (ops : s.ostack = a :: b :: rest) :
    exec i s = .next { s with ip := s.ip + 1, ostack := f a b :: rest } := by
  have room : s.params.ostackDepth ≠ some rest.length := State.room_of_length_lt hfit (by simp [ops])
  have hbinary : binary f (s.advance 1) = .ok ((s.advance 1).setOstack (f a b :: rest)) :=
    binary_eq_ok.2 ⟨a, b, rest, ops, room, rfl⟩
  rw [exec_of_binaryFn form, hbinary]
  rfl

/-- With fewer than two operands the form underflows (R93). -/
theorem exec_binary_of_length_lt (form : binaryFn i = some f) (h : s.ostack.length < 2) :
    exec i s = .next (takeFault s ⟨.ostackUnderflow, 0⟩) := by
  rw [exec_of_binaryFn form, (binary_eq_error (s := s.advance 1)).2 (.inl ⟨h, rfl⟩), finish_error]

end BinaryForm

/-! The word of an unbounded result is that of its residue modulo `2^64` (R90 to R92). -/

theorem ofNat_mod_two_pow (n : Nat) : BitVec.ofNat 64 (n % 2 ^ 64) = BitVec.ofNat 64 n :=
  BitVec.eq_of_toNat_eq (by simp only [BitVec.toNat_ofNat, Nat.mod_mod])

theorem ofInt_emod_two_pow (n : Int) : BitVec.ofInt 64 (n % 2 ^ 64) = BitVec.ofInt 64 n :=
  BitVec.eq_of_toNat_eq (by simp [BitVec.toNat_ofInt])

/-- The modular sum is the unbounded one, reduced (R90). -/
theorem ofNat_add_mod (a b : Word) : BitVec.ofNat 64 ((b.toNat + a.toNat) % 2 ^ 64) = b + a := by
  simp only [ofNat_mod_two_pow, BitVec.ofNat_add, BitVec.ofNat_toNat, BitVec.setWidth_eq]

/-- The modular difference is the unbounded one, reduced, which may be negative (R91). -/
theorem ofInt_sub_emod (a b : Word) : BitVec.ofInt 64 (((b.toNat : Int) - a.toNat) % 2 ^ 64) = b - a := by
  simp only [ofInt_emod_two_pow, Int.sub_eq_add_neg, BitVec.ofInt_add, BitVec.ofInt_neg, BitVec.ofInt_natCast,
    BitVec.ofNat_toNat, BitVec.setWidth_eq, BitVec.sub_eq_add_neg]

/-- The modular product is the unbounded one of the unsigned readings, reduced (R92). -/
theorem ofNat_mul_mod (a b : Word) : BitVec.ofNat 64 ((b.toNat * a.toNat) % 2 ^ 64) = b * a := by
  simp only [ofNat_mod_two_pow, BitVec.ofNat_mul, BitVec.ofNat_toNat, BitVec.setWidth_eq]

/-- The modular product is also the word of the product of the signed readings (R92). -/
theorem ofInt_toInt_mul_toInt (a b : Word) : BitVec.ofInt 64 (b.toInt * a.toInt) = b * a := by
  rw [BitVec.ofInt_mul, BitVec.ofInt_toInt, BitVec.ofInt_toInt]

/-- Settles O4: the three instructions have the two-operand form, and their functions are the reduced unbounded results. -/
theorem arithmeticPushesBOpA : Obligations.ArithmeticPushesBOpA := by
  refine ⟨fun s a b rest hfit ops => ?_, fun s i hi hlen => ?_, fun a b => ?_, rfl, rfl, rfl⟩
  · have completes {i f} (form : binaryFn i = some f) := exec_binary_of_two form hfit ops
    rw [ofNat_add_mod, ofInt_sub_emod, ofNat_mul_mod]
    exact ⟨(completes (i := .add) rfl :), (completes (i := .sub) rfl :), (completes (i := .multu) rfl :)⟩
  · rcases hi with rfl | rfl | rfl
    all_goals exact exec_binary_of_length_lt rfl hlen
  · rw [ofNat_mul_mod, ofInt_toInt_mul_toInt]

end Sys2Proof.Machine
end

section
/-! PROOFS. The comparison instructions (42_compare): the word a comparison pushes, as the relation of the unsigned readings
with the top on the left (R105), and the meanings of `gt` (R100), `lt` (R101), `eq` (R102), `ge` (R103) and `le` (R104). -/

namespace Sys2Proof.Machine

section Comparison

variable {s : State} {i : Instr} {a b : Word} {rest : List Word} (r : Nat → Nat → Prop) [DecidableRel r]

theorem compareWords_decide (a b : Word) :
    compareWords (fun x y => decide (r x y)) a b = if r a.toNat b.toNat then 1 else 0 := by
  simp only [compareWords_eq, decide_eq_true_eq]

/-- With two operands a comparison completes, and its verdict is the relation with the top on the left (R105). -/
theorem exec_compare_of_two (form : binaryFn i = some (compareWords fun x y => decide (r x y)))
    (hfit : s.stacksFit = true) (ops : s.ostack = a :: b :: rest) :
    exec i s = .next { s with ip := s.ip + 1, ostack := (if r a.toNat b.toNat then 1 else 0) :: rest } := by
  rw [exec_binary_of_two form hfit ops, compareWords_decide]

end Comparison

/-- Settles O5: the five have the two-operand form of their relations. Words are equal exactly when their unsigned readings
are, which turns the verdict of `eq` on the readings into one on all 64 bits (R102). -/
theorem comparisonsPushTheVerdict : Obligations.ComparisonsPushTheVerdict := by
  refine ⟨fun s a b rest hfit ops => ⟨?gt, ?lt, ?eq, ?ge, ?le⟩, fun s i hi hlen => ?underflow, rfl, rfl, rfl, rfl, rfl⟩
  case gt => exact exec_compare_of_two (· > ·) rfl hfit ops
  case lt => exact exec_compare_of_two (· < ·) rfl hfit ops
  case eq => simpa only [BitVec.toNat_inj] using exec_compare_of_two (i := .eq) (· = ·) rfl hfit ops
  case ge => exact exec_compare_of_two (· ≥ ·) rfl hfit ops
  case le => exact exec_compare_of_two (· ≤ ·) rfl hfit ops
  case underflow =>
    rcases hi with rfl | rfl | rfl | rfl | rfl
    all_goals exact exec_binary_of_length_lt rfl hlen

end Sys2Proof.Machine
end

section
/-! PROOFS. The memory instructions (43_memory_ops): the form of the loads (R110, R111) and that of the stores (R112 to R114)
run from the opcode word, with what each does to the operand stack and to the bytes of memory. -/

namespace Sys2Proof.Machine

/-! The loads (R110, R111). -/

/-- The unsigned integer of a run of memory as the sum of R31. -/
theorem leValue_readBytes (m : Memory) (addr n : Nat) :
    leValue (m.readBytes addr n) = ∑ k ∈ Finset.range n, (m.readByte (addr + k)).toNat * 2 ^ (8 * k) :=
  leValue_map_range (fun k => m.readByte (addr + k)) n

section LoadForm

variable {i : Instr} {n : Nat} {s : State} {addr : Word} {rest : List Word}
variable (form : (i, n) ∈ [(Instr.read8, 1), (.read64, 8)])
include form

theorem exec_of_load_form (s : State) :
    exec i s = finish s (load n (s.advance 1)) := by
  simp only [List.mem_cons, Prod.mk.injEq, List.not_mem_nil, or_false] at form
  rcases form with ⟨rfl, rfl⟩ | ⟨rfl, rfl⟩
  · rfl
  · rfl

/-- A load inside the buffer completes: it puts back as many values as it popped, so it never overflows. -/
theorem exec_load_of_le (hfit : s.stacksFit = true) (ops : s.ostack = addr :: rest)
    (hin : addr.toNat + n ≤ s.params.memCapacity) :
    exec i s = .next { s with
      ip := s.ip + 1, ostack := BitVec.ofNat 64 (leValue (s.mem.readBytes addr.toNat n)) :: rest } := by
  have room : s.params.ostackDepth ≠ some rest.length := State.room_of_length_lt hfit (by simp [ops])
  have hload : load n (s.advance 1) = .ok ((s.advance 1).setOstack
      (BitVec.ofNat 64 (leValue (s.mem.readBytes addr.toNat n)) :: rest)) :=
    load_eq_ok.2 ⟨addr, rest, ops, inBounds_iff.2 hin, room, rfl⟩
  rw [exec_of_load_form form, hload]
  rfl

/-- A load past the end of the buffer faults with its address, also when that is the only operand (R33). -/
theorem exec_load_of_lt (ops : s.ostack = addr :: rest)
    (hout : s.params.memCapacity < addr.toNat + n) : exec i s = .next (takeFault s ⟨.memOob, addr⟩) := by
  have hb : inBounds (s.advance 1) addr n = false := decide_eq_false (Nat.not_le.2 hout)
  rw [exec_of_load_form form, (load_eq_error (s := s.advance 1)).2 (.inr ⟨addr, rest, ops, .inl ⟨hb, rfl⟩⟩),
    finish_error]

theorem exec_load_of_nil (ops : s.ostack = []) :
    exec i s = .next (takeFault s ⟨.ostackUnderflow, 0⟩) := by
  rw [exec_of_load_form form, (load_eq_error (s := s.advance 1)).2 (.inl ⟨ops, rfl⟩), finish_error]

end LoadForm

/-- Settles O6: the two have the load form of width 1 and of width 8; the value of one byte is the byte, and that of eight
is the sum of R31. -/
theorem loadsPushTheBytesAtTheAddress : Obligations.LoadsPushTheBytesAtTheAddress := by
  have byte : (Instr.read8, 1) ∈ [(Instr.read8, 1), (.read64, 8)] := by simp
  have word : (Instr.read64, 8) ∈ [(Instr.read8, 1), (.read64, 8)] := by simp
  refine ⟨fun s addr rest hfit ops => ⟨fun hin => ?_, exec_load_of_lt byte ops, fun hin => ?_, exec_load_of_lt word ops⟩,
    fun s ops => ⟨exec_load_of_nil byte ops, exec_load_of_nil word ops⟩, rfl, rfl⟩
  · rw [exec_load_of_le byte hfit ops hin, Memory.readBytes_one, leValue_singleton, BitVec.ofNat_toNat]
  · rw [exec_load_of_le word hfit ops hin, leValue_readBytes]

/-! The stores (R112 to R114). -/

section StoreForm

variable {i : Instr} {n : Nat} {s : State} {addr value : Word} {rest : List Word}
variable (form : (i, n) ∈ [(Instr.write8, 1), (.write64, 8)])
include form

theorem exec_of_store_form (s : State) :
    exec i s = finish s (store n (s.advance 1)) := by
  simp only [List.mem_cons, Prod.mk.injEq, List.not_mem_nil, or_false] at form
  rcases form with ⟨rfl, rfl⟩ | ⟨rfl, rfl⟩
  · rfl
  · rfl

/-- A store inside the buffer completes, with the low bytes of the value stored as one run. -/
theorem exec_store_of_le (ops : s.ostack = addr :: value :: rest)
    (hin : addr.toNat + n ≤ s.params.memCapacity) :
    exec i s = .next { s with
      ip := s.ip + 1, ostack := rest, mem := s.mem.writeBytes addr.toNat (leBytes value n) } := by
  have hstore : store n (s.advance 1) = .ok (((s.advance 1).setOstack rest).setMem
      (s.mem.writeBytes addr.toNat (leBytes value n))) :=
    store_eq_ok.2 ⟨addr, value, rest, ops, inBounds_iff.2 hin, rfl⟩
  rw [exec_of_store_form form, hstore]
  rfl

/-- A store needs its second operand before it looks at the address. -/
theorem exec_store_of_length_lt (h : s.ostack.length < 2) :
    exec i s = .next (takeFault s ⟨.ostackUnderflow, 0⟩) := by
  rw [exec_of_store_form form, (store_eq_error (s := s.advance 1)).2 (.inl ⟨h, rfl⟩), finish_error]

end StoreForm

section StoredWord

variable {m : Memory} (hm : m.wf = true) (addr : Nat) (value : Word) {n : Nat}
include hm

/-- Byte `k` of a stored word is `value[8k+7 : 8k]` (R32). -/
theorem Memory.readByte_writeBytes_leBytes {k : Nat} (hk : k < n) :
    (m.writeBytes addr (leBytes value n)).readByte (addr + k) = value.extractLsb' (8 * k) 8 := by
  rw [Memory.readByte_writeBytes_inside hm addr (by simpa using hk)]
  simp [leBytes]

/-- Every byte outside a stored word reads as before (R32, R36). -/
theorem Memory.readByte_writeBytes_leBytes_of_outside {x : Nat} (hx : x < addr ∨ addr + n ≤ x) :
    (m.writeBytes addr (leBytes value n)).readByte x = m.readByte x :=
  Memory.readByte_writeBytes_of_outside hm (by rwa [length_leBytes])

end StoredWord

/-- Settles O7: the two have the store form of width 1 and of width 8, and the memory after it is that with the run of the
value's low bytes stored. -/
theorem storesWriteTheBytesAtTheAddress : Obligations.StoresWriteTheBytesAtTheAddress := by
  have byte : (Instr.write8, 1) ∈ [(Instr.write8, 1), (.write64, 8)] := by simp
  have word : (Instr.write64, 8) ∈ [(Instr.write8, 1), (.write64, 8)] := by simp
  refine ⟨fun s addr value rest hm ops => ⟨fun hin => ?write8, fun hin => ?write64⟩, fun s addr value rest ops => ?refused,
    fun s h => ⟨exec_store_of_length_lt byte h, exec_store_of_length_lt word h⟩, rfl, rfl⟩
  case write8 =>
    exact ⟨_, exec_store_of_le byte ops hin, Memory.readByte_writeBytes_leBytes hm addr.toNat value (k := 0) (by omega),
      fun x hx => Memory.readByte_writeBytes_leBytes_of_outside hm addr.toNat value (by omega)⟩
  case write64 =>
    exact ⟨_, exec_store_of_le word ops hin, fun k hk => Memory.readByte_writeBytes_leBytes hm addr.toNat value hk,
      fun x hx => Memory.readByte_writeBytes_leBytes_of_outside hm addr.toNat value hx⟩
  case refused =>
    exact ⟨exec_eq_memOob_of_access (by simp [loadsAndStores]) ops,
      exec_eq_memOob_of_access (by simp [loadsAndStores]) ops⟩

end Sys2Proof.Machine
end

section
/-! PROOFS. The output instructions (44_output): the decimal numeral of a word and the meaning of `printu` (R120), a run of
memory byte by byte (R47) and the meaning of `puts` (R121). -/

namespace Sys2Proof.Machine

/-! The decimal numeral (R120). -/

/-- Enough fuel gives all the digits of a positive number: each unit of it takes the least significant digit off. -/
theorem decDigits_eq_digits {fuel n : Nat} (hpos : 0 < n) (hlt : n < 10 ^ fuel) :
    decDigits fuel n = (Nat.digits 10 n).reverse.map digitByte := by
  induction fuel generalizing n with
  | zero => omega
  | succ fuel ih =>
    rw [decDigits]
    split
    · next hn => rw [Nat.digits_of_lt 10 n hpos.ne' hn]; rfl
    · next hn =>
      have hquot : n / 10 < 10 ^ fuel := Nat.div_lt_of_lt_mul (by rwa [Nat.pow_succ'] at hlt)
      rw [ih (by omega) hquot, Nat.digits_def' (by omega) hpos, List.reverse_cons, List.map_append]
      rfl

/-- The minimal numeral of a word. 20 digits are enough, since `2^64 < 10^20`; 0 has a digit of its own, where `Nat.digits`
gives none. -/
theorem dec_eq (a : Word) :
    dec a = if a = 0 then [0x30] else (Nat.digits 10 a.toNat).reverse.map digitByte := by
  split
  · next hzero => subst hzero; rfl
  · next hne =>
    have hpos : 0 < a.toNat := Nat.pos_of_ne_zero fun h => hne (BitVec.eq_of_toNat_eq h)
    exact decDigits_eq_digits hpos (a.isLt.trans (by norm_num))

/-! The meaning of `printu` (R120). -/

section Printu

variable {s : State} {a : Word} {rest : List Word}

theorem exec_printu (s : State) :
    exec .printu s =
      finish s (pop (s.advance 1) >>= fun p => .ok (p.2.emit (dec p.1 ++ p.2.params.printuSuffix))) := rfl

/-- `printu` completes on any operand: the output channel takes every byte (R21, R120). -/
theorem exec_printu_of_cons (ops : s.ostack = a :: rest) :
    exec .printu s = .next { s with
      ip := s.ip + 1, ostack := rest, out := s.out ++ (dec a ++ s.params.printuSuffix) } := by
  have hpop : pop (s.advance 1) = .ok (a, (s.advance 1).setOstack rest) := pop_eq_ok.2 ⟨rest, ops, rfl⟩
  rw [exec_printu, hpop]
  rfl

theorem exec_printu_of_nil (ops : s.ostack = []) :
    exec .printu s = .next (takeFault s ⟨.ostackUnderflow, 0⟩) := by
  rw [exec_printu, (pop_eq_error (s := s.advance 1)).2 ⟨ops, rfl⟩, error_bind, finish_error]

end Printu

/-- Settles O8: the bytes that `printu` emits are those of the numeral that `Nat.digits` gives. -/
theorem printuEmitsTheDecimalNumeral : Obligations.PrintuEmitsTheDecimalNumeral := by
  refine ⟨fun s a rest ops => ?_, fun s ops => exec_printu_of_nil ops, rfl⟩
  rw [exec_printu_of_cons ops, dec_eq]
  rfl

/-! The meaning of `puts` (R47, R121). -/

/-- Byte `k` of a run of memory is the byte at the address `k` past its start (R47). -/
theorem Memory.getElem?_readBytes (m : Memory) (addr : Nat) {n k : Nat} (hk : k < n) :
    (m.readBytes addr n)[k]? = some (m.readByte (addr + k)) := by
  simp [Memory.readBytes, hk]

section Puts

variable {s : State} {size ptr : Word} {rest : List Word}

theorem exec_puts (s : State) :
    exec .puts s =
      finish s (pop2 (s.advance 1) >>= fun p => memBytes p.2.1 p.1 p.2.2 >>= fun bs => .ok (p.2.2.emit bs)) := rfl

/-- The operands of `puts`: `size` is popped first (R7, R121). -/
theorem pop2_advance_of_two (ops : s.ostack = size :: ptr :: rest) :
    pop2 (s.advance 1) = .ok (size, ptr, (s.advance 1).setOstack rest) :=
  pop2_eq_ok.2 ⟨rest, ops, rfl⟩

/-- `puts` of a range inside the buffer emits the run of its bytes (R47, R121). -/
theorem exec_puts_of_le (ops : s.ostack = size :: ptr :: rest)
    (hin : ptr.toNat + size.toNat ≤ s.params.memCapacity) :
    exec .puts s = .next { s with
      ip := s.ip + 1, ostack := rest, out := s.out ++ s.mem.readBytes ptr.toNat size.toNat } := by
  have hbytes : memBytes ptr size ((s.advance 1).setOstack rest) = .ok (s.mem.readBytes ptr.toNat size.toNat) :=
    memBytes_eq_ok.2 ⟨inBounds_iff.2 hin, rfl⟩
  rw [exec_puts, pop2_advance_of_two ops, ok_bind, hbytes]
  rfl

/-- `puts` of a range past the end of the buffer faults with the range's start, before a byte is emitted (R33, R121). -/
theorem exec_puts_of_lt (ops : s.ostack = size :: ptr :: rest)
    (hout : s.params.memCapacity < ptr.toNat + size.toNat) :
    exec .puts s = .next (takeFault s ⟨.memOob, ptr⟩) := by
  have hbytes : memBytes ptr size ((s.advance 1).setOstack rest) = .error ⟨.memOob, ptr⟩ :=
    memBytes_eq_error.2 ⟨decide_eq_false (Nat.not_le.2 hout), rfl⟩
  rw [exec_puts, pop2_advance_of_two ops, ok_bind, hbytes, error_bind, finish_error]

/-- `puts` needs both operands before it looks at the range (R121). -/
theorem exec_puts_of_length_lt (h : s.ostack.length < 2) :
    exec .puts s = .next (takeFault s ⟨.ostackUnderflow, 0⟩) := by
  rw [exec_puts, (pop2_eq_error (s := s.advance 1)).2 ⟨h, rfl⟩, error_bind, finish_error]

end Puts

/-- Settles O9: the bytes emitted are the run of memory that the admitted range names. -/
theorem putsEmitsTheRunOfBytes : Obligations.PutsEmitsTheRunOfBytes := by
  refine ⟨fun s size ptr rest ops => ⟨fun hin => ?_, fun hout => exec_puts_of_lt ops hout⟩,
    fun s h => exec_puts_of_length_lt h, rfl⟩
  exact ⟨s.mem.readBytes ptr.toNat size.toNat, exec_puts_of_le ops hin, Memory.length_readBytes _ _ _,
    fun k hk => Memory.getElem?_readBytes s.mem ptr.toNat hk⟩

end Sys2Proof.Machine
end

section
/-! PROOFS. The control instructions (45_control): the two operand forms of the jumps (R132 to R136), the meanings of `call`
(R130) and `ret` (R131), and the fetch after a transfer past the end of the program (R137, R162). -/

namespace Sys2Proof.Machine

/-! The jumps (R132, R133, R135, R136). -/

section UnconditionalForm

variable {s : State} {i : Instr} {target : Word → Word → Word}
variable (form : i ∈ [Instr.jp, .jr]) (fn : targetFn i = some target)
include form fn

theorem exec_of_transfer_form (s : State) : exec i s = finish s (transfer target (s.advance 1)) := by
  simp only [List.mem_cons, List.not_mem_nil, or_false] at form
  rcases form with rfl | rfl
  all_goals cases fn; rfl

theorem exec_transfer_of_nil (ops : s.ostack = []) : exec i s = .next (takeFault s ⟨.ostackUnderflow, 0⟩) := by
  rw [exec_of_transfer_form form fn, (transfer_eq_error (s := s.advance 1)).2 ⟨ops, rfl⟩, finish_error]

end UnconditionalForm

section ConditionalForm

variable {s : State} {i : Instr} {target : Word → Word → Word} {v cond : Word} {rest : List Word}
variable (form : i ∈ [Instr.jpc, .jrc]) (fn : targetFn i = some target)
include form fn

theorem exec_of_transferIf_form (s : State) : exec i s = finish s (transferIf target (s.advance 1)) := by
  simp only [List.mem_cons, List.not_mem_nil, or_false] at form
  rcases form with rfl | rfl
  all_goals cases fn; rfl

/-- A conditional jump is taken on every condition that is not zero (R133, R137 item 7). -/
theorem exec_transferIf_of_ne_zero (ops : s.ostack = v :: cond :: rest) (hcond : cond ≠ 0) :
    exec i s = .next { s with ip := target (s.ip + 1) v, ostack := rest } := by
  rw [exec_eq_next_of_transferIf form fn ops, if_neg hcond]
  rfl

/-- A conditional jump that is not taken goes to the next instruction; both operands go all the same (R133). -/
theorem exec_transferIf_of_zero (ops : s.ostack = v :: cond :: rest) (hcond : cond = 0) :
    exec i s = .next { s with ip := s.ip + 1, ostack := rest } := by
  rw [exec_eq_next_of_transferIf form fn ops, if_pos hcond]
  rfl

/-- A conditional jump needs both operands before it looks at the condition (R133). -/
theorem exec_transferIf_of_length_lt (h : s.ostack.length < 2) :
    exec i s = .next (takeFault s ⟨.ostackUnderflow, 0⟩) := by
  rw [exec_of_transferIf_form form fn, (transferIf_eq_error (s := s.advance 1)).2 ⟨h, rfl⟩, finish_error]

end ConditionalForm

/-- Settles O12: the two have the unconditional and the conditional form of the absolute target. -/
theorem absoluteJumpsSetIp : Obligations.AbsoluteJumpsSetIp := by
  have jp : Instr.jp ∈ [Instr.jp, .jr] := by simp
  have jpc : Instr.jpc ∈ [Instr.jpc, .jrc] := by simp
  exact ⟨fun _ _ _ ops => exec_eq_next_of_transfer jp rfl ops,
    fun _ _ _ _ ops => ⟨exec_transferIf_of_ne_zero jpc rfl ops, exec_transferIf_of_zero jpc rfl ops⟩,
    fun _ ops => exec_transfer_of_nil jp rfl ops, fun _ h => exec_transferIf_of_length_lt jpc rfl h, rfl, rfl⟩

/-- The address after the opcode word is the unbounded one, reduced (R15). -/
theorem ofNat_succ_mod (ip : Word) : BitVec.ofNat 64 ((ip.toNat + 1) % 2 ^ 64) = ip + 1 :=
  ofNat_add_mod 1 ip

/-- The relative target is the unbounded sum with the unsigned offset, reduced (R135). -/
theorem ofNat_succ_add_mod (ip offset : Word) :
    BitVec.ofNat 64 ((ip.toNat + 1 + offset.toNat) % 2 ^ 64) = ip + 1 + offset := by
  rw [← ofNat_succ_mod, ← ofNat_add_mod, BitVec.toNat_ofNat, Nat.mod_mod, Nat.mod_add_mod]

/-- The relative target is also the word of the sum with the signed offset (R135). -/
theorem ofInt_succ_add_toInt (ip offset : Word) :
    BitVec.ofInt 64 ((ip.toNat : Int) + 1 + offset.toInt) = ip + 1 + offset := by
  rw [BitVec.ofInt_add, BitVec.ofInt_toInt, BitVec.ofInt_add, BitVec.ofInt_natCast, BitVec.ofNat_toNat,
    BitVec.setWidth_eq]
  rfl

/-- Settles O13: the two have the unconditional and the conditional form of the relative target, and that is the modular
sum of both readings of the offset. -/
theorem relativeJumpsAddToIp : Obligations.RelativeJumpsAddToIp := by
  have jr : Instr.jr ∈ [Instr.jp, .jr] := by simp
  have jrc : Instr.jrc ∈ [Instr.jpc, .jrc] := by simp
  refine ⟨fun s offset rest ops => ?jr, fun s offset cond rest ops => ⟨fun hcond => ?taken, fun hcond => ?untaken⟩,
    fun ip offset => ?signed, fun _ ops => exec_transfer_of_nil jr rfl ops,
    fun _ h => exec_transferIf_of_length_lt jrc rfl h, rfl, rfl⟩
  case jr =>
    rw [ofNat_succ_add_mod]
    exact exec_eq_next_of_transfer jr rfl ops
  case taken =>
    rw [ofNat_succ_add_mod]
    exact exec_transferIf_of_ne_zero jrc rfl ops hcond
  case untaken =>
    rw [ofNat_succ_mod]
    exact exec_transferIf_of_zero jrc rfl ops hcond
  case signed => rw [ofNat_succ_add_mod, ofInt_succ_add_toInt]

/-! `call` and `ret` (R130, R131). -/

section CallAndRet

variable {s t : State} {v : Word} {rest : List Word}

theorem exec_call (s : State) :
    exec .call s =
      finish s (pop (s.advance 1) >>= fun p => cpush p.2.ip p.2 >>= fun u => .ok (u.setIp p.1)) := rfl

/-- `call` with an operand completes or overflows as the save of its return address does (R130). -/
theorem exec_call_of_cons (ops : s.ostack = v :: rest) :
    exec .call s = finish s (cpush (s.ip + 1) ((s.advance 1).setOstack rest) >>= fun u => .ok (u.setIp v)) := by
  rw [exec_call, (pop_eq_ok (s := s.advance 1)).2 ⟨rest, ops, rfl⟩]
  rfl

theorem exec_call_of_room (ops : s.ostack = v :: rest) (room : s.params.cstackDepth ≠ some s.cstack.length) :
    exec .call s = .next { s with ip := v, ostack := rest, cstack := (s.ip + 1) :: s.cstack } := by
  rw [exec_call_of_cons ops, (cpush_eq_ok (s := (s.advance 1).setOstack rest)).2 ⟨room, rfl⟩]
  rfl

theorem exec_call_of_full (ops : s.ostack = v :: rest) (full : s.params.cstackDepth = some s.cstack.length) :
    exec .call s = .next (takeFault s ⟨.cstackOverflow, 0⟩) := by
  rw [exec_call_of_cons ops, (cpush_eq_error (s := (s.advance 1).setOstack rest)).2 ⟨full, rfl⟩, error_bind,
    finish_error]

theorem exec_call_of_nil (ops : s.ostack = []) : exec .call s = .next (takeFault s ⟨.ostackUnderflow, 0⟩) := by
  rw [exec_call, (pop_eq_error (s := s.advance 1)).2 ⟨ops, rfl⟩, error_bind, finish_error]

theorem exec_ret (s : State) :
    exec .ret s = finish s (cpop (s.advance 1) >>= fun p => .ok (p.2.setIp p.1)) := rfl

theorem exec_ret_of_cons (ret : s.cstack = v :: rest) :
    exec .ret s = .next { s with ip := v, cstack := rest } := by
  rw [exec_ret, (cpop_eq_ok (s := s.advance 1)).2 ⟨rest, ret, rfl⟩]
  rfl

theorem exec_ret_of_nil (ret : s.cstack = []) : exec .ret s = .next (takeFault s ⟨.cstackUnderflow, 0⟩) := by
  rw [exec_ret, (cpop_eq_error (s := s.advance 1)).2 ⟨ret, rfl⟩, error_bind, finish_error]

/-- An instruction that leaves the engine running took no fault, so it had its own effect (R169). -/
theorem effect_of_exec {i : Instr} (h : exec i s = .next t) (ht : t.status = .running) : Effect s i t := by
  obtain ⟨e, rfl⟩ | heff := exec_cases h
  · cases ht
  · exact heff

theorem Effect.call_stacks (h : Effect s .call t) :
    t.cstack = (s.ip + 1) :: s.cstack ∧ s.ostack = t.ip :: t.ostack := by
  cases h with
  | call ops _ => exact ⟨rfl, ops⟩
  | binary _ form => cases form
  | load _ _ form | store _ _ form | transfer _ form _ | transferIf _ form _ => simp at form

theorem Effect.ret_stacks (h : Effect s .ret t) : t.ostack = s.ostack ∧ s.cstack = t.ip :: t.cstack := by
  cases h with
  | ret ops => exact ⟨rfl, ops⟩
  | binary _ form => cases form
  | load _ _ form | store _ _ form | transfer _ form _ | transferIf _ form _ => simp at form

end CallAndRet

/-! The fetch after a transfer (R40, R137 item 2, R162). -/

/-- At or past the end of the program a running engine raises at its next fetch, with that address (R162). -/
theorem step_of_length_le_ip {t : State} (ht : t.status = .running) (hlen : t.prog.length ≤ t.ip.toNat) :
    step t = .next (takeFault t ⟨.fetchOob, t.ip⟩) := by
  have hfetch : fetchInstr t = .error ⟨.fetchOob, t.ip⟩ := by
    rw [fetchInstr, fetchWord_eq_error.2 ⟨hlen, rfl⟩, error_bind]
  exact step_eq_takeFault ht hfetch

/-- Settles O10: the clause on the next step is the fetch at the operand, where `call` has left `ip`. -/
theorem callSavesTheReturnAddress : Obligations.CallSavesTheReturnAddress := by
  refine ⟨fun s addr rest ops => ⟨fun room => ?_, exec_call_of_full ops⟩, fun s ops => exec_call_of_nil ops, rfl⟩
  refine ⟨exec_call_of_room ops room, fun hs hlen t ht => ?_⟩
  obtain rfl := Host.Outcome.next.inj ((exec_call_of_room ops room).symm.trans ht)
  exact ⟨step_of_length_le_ip hs hlen, rfl⟩

/-- Settles O11: the invariant bounds the popped address by `LEN` from above. -/
theorem retPopsTheCallStackIntoIp : Obligations.RetPopsTheCallStackIntoIp := by
  refine ⟨fun s v rest ret => exec_ret_of_cons ret, fun s ret => exec_ret_of_nil ret, fun s v rest hinv ret hlen => ?_, rfl⟩
  obtain ⟨-, hle⟩ := hinv.returns v (by simp [ret])
  exact Nat.le_antisymm hle hlen

/-- Settles O38: the `ret` finds the address the `call` saved, on top of the call stack from before it. -/
theorem retResumesAfterTheCall : Obligations.RetResumesAfterTheCall := by
  intro s t u v _ hcall ht hstack hret
  obtain ⟨hsaved, -⟩ := (effect_of_exec hcall ht).call_stacks
  rw [exec_ret_of_cons (hstack.trans hsaved)] at hret
  exact (Host.Outcome.next.inj hret).symm

/-- Settles O39: each transfer completes with `ip` at its target, and the fetch there raises. -/
theorem badTargetsFaultAtTheNextFetch : Obligations.BadTargetsFaultAtTheNextFetch := by
  refine ⟨fun s v rest hs ops => ⟨fun hlen room => ?call, fun hlen => ?jp, fun hlen => ?jr⟩,
    fun s v cond rest hs ops => ⟨fun hcond hlen => ?jpc, fun hcond hlen => ?jrc, fun hcond => ?untaken⟩,
    fun s v rest hs ret hlen => ?ret, fun i s t _ hs h ht hlen => ?left⟩
  case call => exact ⟨_, rfl, exec_call_of_room ops room, step_of_length_le_ip hs hlen⟩
  case jp => exact ⟨_, rfl, exec_eq_next_of_transfer (i := .jp) (by simp) rfl ops, step_of_length_le_ip hs hlen⟩
  case jr => exact ⟨_, rfl, exec_eq_next_of_transfer (i := .jr) (by simp) rfl ops, step_of_length_le_ip hs hlen⟩
  case jpc => exact ⟨_, rfl, exec_transferIf_of_ne_zero (i := .jpc) (by simp) rfl ops hcond, step_of_length_le_ip hs hlen⟩
  case jrc => exact ⟨_, rfl, exec_transferIf_of_ne_zero (i := .jrc) (by simp) rfl ops hcond, step_of_length_le_ip hs hlen⟩
  case untaken =>
    exact ⟨exec_transferIf_of_zero (by simp) rfl ops hcond, exec_transferIf_of_zero (by simp) rfl ops hcond⟩
  case ret => exact ⟨_, rfl, exec_ret_of_cons ret, step_of_length_le_ip hs hlen⟩
  case left =>
    have heff : Effect s i t := effect_of_exec h ht
    exact ⟨step_of_length_le_ip ht hlen, fun hi => Effect.ret_stacks (hi ▸ heff),
      fun hi => Effect.call_stacks (hi ▸ heff)⟩

end Sys2Proof.Machine
end

section
/-! PROOFS. The system instruction (46_system): the meaning of `halt`, and a run from the state it leaves (R150). -/

namespace Sys2Proof.Machine

/-- `halt` has no operand and no failing primitive, so its meaning is a next state whatever the state before it (R150). -/
theorem exec_halt (s : State) : exec .halt s = .next { s with ip := s.ip + 1, status := .halted } := by
  have hexec : exec .halt s = finish s (.ok (s.advance 1).halt) := rfl
  rw [hexec, finish_ok]
  rfl

/-- Settles O14: `halt` leaves a status other than running, in which a run takes no step. -/
theorem haltEndsTheRun : Obligations.HaltEndsTheRun := by
  refine fun s => ⟨exec_halt s, fun t ht n => ?_, rfl⟩
  obtain rfl := Host.Outcome.next.inj ((exec_halt s).symm.trans ht)
  exact run_of_not_running (by simp) n

end Sys2Proof.Machine
end

section
/-! PROOFS. The step and what it keeps (70_reset_and_hazards R191, R201): the inversion of a step at every status, the
induction along reached states, and the invariant kept by every step. -/

namespace Sys2Proof.Machine

/-! What a step can do, at every status (R191). -/

/-- Every instruction ends in its own next state or in the fault its meaning raised, taken (R169). -/
theorem exec_eq_finish (i : Instr) (s : State) : ∃ r, exec i s = finish s r := by
  cases i with
  | halt => exact ⟨.ok (s.advance 1).halt, rfl⟩
  | _ => exact ⟨_, rfl⟩

/-- Every instruction in every state answers a next state (log 4). -/
theorem exec_eq_next (i : Instr) (s : State) : ∃ t, exec i s = .next t := by
  obtain ⟨r, hr⟩ := exec_eq_finish i s
  cases r with
  | ok t => exact ⟨t, hr⟩
  | error e => exact ⟨takeFault s e, hr⟩

/-- Every step answers a next state: a fault of the fetch is taken, and an instruction that was fetched has one
(log 4). -/
theorem step_eq_next (s : State) : ∃ t, step s = .next t := by
  by_cases hs : s.status = .running
  · cases hfetch : fetchInstr s with
    | error e => exact ⟨takeFault s e, step_eq_takeFault hs hfetch⟩
    | ok i => rw [step_eq_exec hs hfetch]; exact exec_eq_next i s
  · exact ⟨s, step_of_not_running hs⟩

/-- Settles O42. -/
theorem noStepStops : Obligations.NoStepStops :=
  ⟨exec_eq_next, step_eq_next, fun _ hs => step_of_not_running hs⟩

/-- Settles O15: the decoded words lie in the program, so `ip + 1` does not wrap and fetch reads what the decoder
does. -/
theorem stepRunsTheDecodedInstruction : Obligations.StepRunsTheDecodedInstruction := by
  intro s i rest hs hprog hdec
  have hlen : s.prog.length < 2 ^ 64 := of_decide_eq_true hprog
  have hword : s.ip.toNat < s.prog.length := by
    by_contra hout
    rw [List.drop_of_length_le (Nat.le_of_not_lt hout)] at hdec
    cases hdec
  exact step_eq_exec hs (fetchInstr_of_decode (by omega) hdec)

/-- A step leaves an engine that is not running, takes a fault, or has the effect of the instruction it fetched. -/
theorem step_eq_next_cases {s t : State} (h : step s = .next t) :
    (s.status ≠ .running ∧ t = s) ∨ (s.status = .running ∧ ∃ e, t = takeFault s e) ∨
      (s.status = .running ∧ ∃ i, fetchInstr s = .ok i ∧ Effect s i t) := by
  by_cases hs : s.status = .running
  · obtain hfault | heff := step_cases hs h
    · exact .inr (.inl ⟨hs, hfault⟩)
    · exact .inr (.inr ⟨hs, heff⟩)
  · exact .inl ⟨hs, Host.Outcome.next.inj (h.symm.trans (step_of_not_running hs))⟩

/-- What every step keeps holds of every state reached from one that has it. -/
theorem Reaches.keeps {P : State → Prop} (hstep : ∀ s t, P s → step s = .next t → P t) {s t : State}
    (h : Reaches s t) (hs : P s) : P t := by
  induction h with
  | refl => exact hs
  | tail _ hlast ih => exact hstep _ _ ih hlast

/-! The effects on the status and on the two stacks (R12, R14, R17). -/

section Effects

variable {i : Instr} {s t : State}

/-- `halt` leaves the engine halted, and no other instruction writes the status (R150). -/
theorem Effect.status_eq_ite (h : Effect s i t) : t.status = if i = .halt then .halted else s.status := by
  split
  case isFalse hi => exact h.status_eq hi
  case isTrue hi =>
    subst hi
    cases h with
    | halt => rfl
    | binary _ form => cases form
    | load _ _ form | store _ _ form | transfer _ form _ | transferIf _ form _ => simp at form

/-- No effect faults a running engine: only a fault taken does (R169). -/
theorem Effect.status_ne_faulted (h : Effect s i t) (hs : s.status = .running) : t.status ≠ .faulted := by
  rw [h.status_eq_ite, hs]
  split <;> simp

/-- An effect takes at most two values off the operand stack, and puts one more on it only where there is room
(R12, R13). -/
theorem Effect.ostack_length (h : Effect s i t) : s.ostack.length ≤ t.ostack.length + 2 ∧
    (t.ostack.length ≤ s.ostack.length ∨
      t.ostack.length = s.ostack.length + 1 ∧ s.params.ostackDepth ≠ some s.ostack.length) := by
  cases h with
  | push _ room | dup _ _ _ room => exact ⟨by simp; omega, .inr ⟨rfl, room⟩⟩
  | ret | halt => simp
  | swap ops | binary ops | load ops | printu ops | call ops | transfer ops => simp [ops]
  | store ops | puts ops | transferIf ops => simp [ops, apply_ite State.ostack, Nat.add_assoc]

/-- An effect leaves the call stack, saves the return address where there is room, or takes the top address off
(R14, R130, R131). -/
theorem Effect.cstack_cases (h : Effect s i t) : t.cstack = s.cstack ∨
    (t.cstack = (s.ip + 1) :: s.cstack ∧ s.params.cstackDepth ≠ some s.cstack.length) ∨
      ∃ v, s.cstack = v :: t.cstack := by
  cases h with
  | call _ room => exact .inr (.inl ⟨rfl, room⟩)
  | ret ops => exact .inr (.inr ⟨_, ops⟩)
  | _ => exact .inl (by simp [apply_ite State.cstack])

end Effects

/-! The invariant (R201). -/

/-- A stack below its depth still fits it with one value more (R5). -/
theorem fits_succ {depth : Option Nat} {n : Nat} (h : fits depth n = true) (room : depth ≠ some n) :
    fits depth (n + 1) = true :=
  fits_iff.2 fun d hd => Nat.lt_of_le_of_ne (fits_iff.1 h d hd) fun e => room (e ▸ hd)

/-- A shorter stack fits where a longer one does (R5). -/
theorem fits_of_le {depth : Option Nat} {m n : Nat} (h : fits depth n = true) (hle : m ≤ n) : fits depth m = true :=
  fits_iff.2 fun d hd => hle.trans (fits_iff.1 h d hd)

section Invariant

variable {i : Instr} {s t : State}

/-- Where an instruction was fetched there is a word of the program (R40). -/
theorem exists_word_of_fetchInstr (h : fetchInstr s = .ok i) : ∃ w, s.prog[s.ip.toNat]? = some w := by
  obtain ⟨w, hw, -⟩ := bind_eq_ok.1 h
  exact ⟨w, fetchWord_eq_ok.1 hw⟩

/-- No cause has the code 0, which stands for no fault (R161). -/
theorem Cause.code_ne_zero (c : Cause) : c.code ≠ 0 := by
  cases c <;> decide

/-- A fault taken keeps the invariant: it writes the record alone, with a cause and the address of the step (R169). -/
theorem takeFault_keeps_inv (h : Inv s) (e : Raise) : Inv (takeFault s e) where
  params := h.params
  prog := h.prog
  memCanonical := h.memCanonical
  memWithin := h.memWithin
  stacksFit := h.stacksFit
  returns := h.returns
  record := fun _ => ⟨e.cause.code_ne_zero, rfl⟩

/-- The memory stays canonical and inside its buffer: a store passes the bounds rule first (R33, log 7). -/
theorem Effect.keeps_mem (h : Effect s i t) (hinv : Inv s) :
    t.mem.wf = true ∧ t.mem.within s.params.memCapacity = true := by
  cases h with
  | store _ bounds _ =>
    refine ⟨Memory.writeBytes_wf hinv.memCanonical _ _, Memory.writeBytes_within hinv.memWithin _ _ ?_⟩
    rw [length_leBytes]
    exact inBounds_iff.1 bounds
  | _ => simp [apply_ite State.mem, hinv.memCanonical, hinv.memWithin]

/-- Both stacks stay within their depths: each grows by one value at most, and only where there is room
(R5, R167, R168). -/
theorem Effect.keeps_stacksFit (h : Effect s i t) (hfit : s.stacksFit = true) : t.stacksFit = true := by
  obtain ⟨hostack, hcstack⟩ := Bool.and_eq_true_iff.1 hfit
  rw [State.stacksFit, h.params_eq, Bool.and_eq_true_iff]
  constructor
  · obtain ⟨-, hle | ⟨hgrow, room⟩⟩ := h.ostack_length
    · exact fits_of_le hostack hle
    · rw [State.osp, hgrow]
      exact fits_succ hostack room
  · obtain heq | ⟨hcall, room⟩ | ⟨v, hret⟩ := h.cstack_cases
    · exact fits_of_le hcstack (by simp [State.csp, heq])
    · rw [State.csp, hcall]
      exact fits_succ hcstack room
    · exact fits_of_le hcstack (by simp [State.csp, hret])

/-- Every return address stays in `1 .. LEN`: the one address that is saved is that behind an opcode word of the
program, whose sum does not wrap (R130, R201 item 8). -/
theorem Effect.keeps_returns (h : Effect s i t) (hinv : Inv s) (hfetch : fetchInstr s = .ok i) :
    ∀ c ∈ t.cstack, 1 ≤ c.toNat ∧ c.toNat ≤ t.prog.length := by
  intro c hc
  rw [h.prog_eq]
  obtain heq | ⟨hcall, -⟩ | ⟨v, hret⟩ := h.cstack_cases
  · exact hinv.returns c (heq ▸ hc)
  · obtain rfl | hold := List.mem_cons.1 (hcall ▸ hc)
    · obtain ⟨w, hw⟩ := exists_word_of_fetchInstr hfetch
      have hlt := (List.getElem?_eq_some_iff.1 hw).1
      rw [toNat_ip_add_one hinv hw]
      omega
    · exact hinv.returns c hold
  · exact hinv.returns c (hret ▸ List.mem_cons_of_mem v hc)

/-- The effect of a fetched instruction on a running engine keeps the invariant. -/
theorem Effect.keeps_inv (h : Effect s i t) (hinv : Inv s) (hs : s.status = .running)
    (hfetch : fetchInstr s = .ok i) : Inv t where
  params := h.params_eq ▸ hinv.params
  prog := h.prog_eq ▸ hinv.prog
  memCanonical := (h.keeps_mem hinv).1
  memWithin := h.params_eq ▸ (h.keeps_mem hinv).2
  stacksFit := h.keeps_stacksFit hinv.stacksFit
  returns := h.keeps_returns hinv hfetch
  record := fun hfault => absurd hfault (h.status_ne_faulted hs)

/-- Every step keeps the invariant (R201). -/
theorem step_keeps_inv (hinv : Inv s) (h : step s = .next t) : Inv t := by
  obtain ⟨-, rfl⟩ | ⟨-, e, rfl⟩ | ⟨hs, i, hfetch, heff⟩ := step_eq_next_cases h
  · exact hinv
  · exact takeFault_keeps_inv hinv e
  · exact heff.keeps_inv hinv hs hfetch

end Invariant

/-- Settles O26: the step lemma, and its induction along the steps that reach a state. -/
theorem stepKeepsTheInvariant : Obligations.StepKeepsTheInvariant :=
  ⟨fun _ _ => step_keeps_inv, fun _ _ hinv h => h.keeps (fun _ _ => step_keeps_inv) hinv⟩

/-! What no step changes, and what only grows (R201 items 1 to 3). -/

/-- No step changes the program or the parameters (R10, R201 item 1). -/
theorem prog_params_eq_of_step {s t : State} (h : step s = .next t) : t.prog = s.prog ∧ t.params = s.params := by
  obtain ⟨-, rfl⟩ | ⟨-, e, rfl⟩ | ⟨-, i, -, heff⟩ := step_eq_next_cases h
  · exact ⟨rfl, rfl⟩
  · exact ⟨takeFault_prog .., takeFault_params ..⟩
  · exact ⟨heff.prog_eq, heff.params_eq⟩

/-- Settles O27, by induction along the steps. -/
theorem programAndParametersNeverChange : Obligations.ProgramAndParametersNeverChange := by
  intro s t h
  refine h.keeps (P := fun u => u.prog = s.prog ∧ u.params = s.params) ?_ ⟨rfl, rfl⟩
  rintro u v ⟨hprog, hparams⟩ hstep
  obtain ⟨hprog', hparams'⟩ := prog_params_eq_of_step hstep
  exact ⟨hprog'.trans hprog, hparams'.trans hparams⟩

/-- A step that changes the status halts or faults a running engine (R17). -/
theorem status_of_step_ne {s t : State} (h : step s = .next t) (hne : t.status ≠ s.status) :
    s.status = .running ∧ (t.status = .halted ∨ t.status = .faulted) := by
  obtain ⟨-, rfl⟩ | ⟨hs, e, rfl⟩ | ⟨hs, i, -, heff⟩ := step_eq_next_cases h
  · exact absurd rfl hne
  · exact ⟨hs, .inr rfl⟩
  · by_cases hi : i = .halt
    · exact ⟨hs, .inl (by rw [heff.status_eq_ite, if_pos hi])⟩
    · exact absurd (heff.status_eq hi) hne

/-- An engine that is not running is the only state reached from it (R17, R171). -/
theorem Reaches.eq_of_not_running {s t : State} (h : Reaches s t) (hs : s.status ≠ .running) : t = s := by
  refine h.keeps (P := fun u => u = s) (fun u v hu hstep => ?_) rfl
  subst hu
  exact Host.Outcome.next.inj (hstep.symm.trans (step_of_not_running hs))

/-- Settles O28. -/
theorem statusMovesAtMostOnce : Obligations.StatusMovesAtMostOnce :=
  ⟨fun _ _ h hne => status_of_step_ne h hne, fun _ _ hs h => congrArg State.status (h.eq_of_not_running hs)⟩

/-- An effect appends to the output (R21, R122). -/
theorem Effect.out_prefix {i : Instr} {s t : State} (h : Effect s i t) : s.out <+: t.out := by
  cases h with
  | printu | puts => exact List.prefix_append _ _
  | _ => simp [apply_ite State.out]

/-- A step appends to the output, and a fault undoes none of it (R122). -/
theorem out_prefix_of_step {s t : State} (h : step s = .next t) : s.out <+: t.out := by
  obtain ⟨-, rfl⟩ | ⟨-, e, rfl⟩ | ⟨-, i, -, heff⟩ := step_eq_next_cases h
  · exact List.prefix_rfl
  · exact List.prefix_rfl
  · exact heff.out_prefix

/-- Settles O29, by induction along the steps. -/
theorem outputOnlyGrows : Obligations.OutputOnlyGrows := by
  intro s t h
  have hprefix : s.out <+: t.out :=
    h.keeps (P := fun u => s.out <+: u.out) (fun _ _ hu hstep => hu.trans (out_prefix_of_step hstep)) List.prefix_rfl
  obtain ⟨bs, hbs⟩ := hprefix
  exact ⟨bs, hbs.symm⟩

/-! The depths of the stacks (R201 item 5). -/

/-- A step takes at most two values off the operand stack and one off the call stack, and puts at most one on each. -/
theorem depths_of_step {s t : State} (h : step s = .next t) :
    (s.osp ≤ t.osp + 2 ∧ t.osp ≤ s.osp + 1) ∧ (s.csp ≤ t.csp + 1 ∧ t.csp ≤ s.csp + 1) := by
  obtain ⟨-, rfl⟩ | ⟨-, e, rfl⟩ | ⟨-, i, -, heff⟩ := step_eq_next_cases h
  · omega
  · exact ⟨⟨Nat.le_add_right .., Nat.le_succ _⟩, Nat.le_succ _, Nat.le_succ _⟩
  · have hostack := heff.ostack_length
    refine ⟨by simp only [State.osp]; omega, ?_⟩
    obtain heq | ⟨hcall, -⟩ | ⟨v, hret⟩ := heff.cstack_cases
    · simp [State.csp, heq]
    · simp [State.csp, hcall, Nat.add_assoc]
    · simp [State.csp, hret, Nat.add_assoc]

/-- Settles O30. -/
theorem stepChangesDepthsLittle : Obligations.StepChangesDepthsLittle := by
  intro s t h
  have hdepths := depths_of_step h
  simp only [List.mem_cons, List.not_mem_nil, or_false]
  omega

/-! The end of a run, and what the host reads of it (R172, R192, R193, R199, R200). -/

/-- A run of `n + m` steps is a run of `n` steps and then one of `m` (R192). -/
theorem run_add {n m : Nat} {s t : State} (h : run n s = .next t) : run (n + m) s = run m t := by
  induction n generalizing s with
  | zero =>
    obtain rfl := Host.Outcome.next.inj h
    rw [Nat.zero_add]
  | succ n ih =>
    by_cases hs : s.status = .running
    · obtain ⟨u, hstep, hrun⟩ := (run_succ_eq_next hs).1 h
      rw [Nat.succ_add, ← ih hrun]
      simp only [run, hs, hstep]
    · obtain rfl := Host.Outcome.next.inj ((run_of_not_running hs _).symm.trans h)
      rw [run_of_not_running hs, run_of_not_running hs]

/-- Further steps leave the end of a run (R192). -/
theorem RunsTo.run_eq {s t : State} (h : RunsTo s t) (n : Nat) : run n t = .next t := by
  obtain ⟨-, -, ht⟩ := h
  exact run_of_not_running ht n

/-- A run has one end: the run as long as both bounds together ends in either (R192). -/
theorem RunsTo.unique {s t u : State} (ht : RunsTo s t) (hu : RunsTo s u) : t = u := by
  obtain ⟨n, hn, -⟩ := id ht
  obtain ⟨m, hm, -⟩ := id hu
  have hnm : run (n + m) s = .next t := (run_add hn).trans (ht.run_eq m)
  have hmn : run (m + n) s = .next u := (run_add hm).trans (hu.run_eq n)
  rw [Nat.add_comm m n, hnm] at hmn
  exact Host.Outcome.next.inj hmn

/-- Settles O41. -/
theorem runsEndInOneState : Obligations.RunsEndInOneState :=
  ⟨fun _ _ _ ht hu => ht.unique hu, fun _ _ h => h.run_eq⟩

theorem State.result_of_halted {t : State} (h : t.status = .halted) : t.result = .success t.out := by
  rw [State.result, h]

theorem State.result_of_faulted {t : State} (h : t.status = .faulted) :
    t.result = .fatal t.cause t.faultPc t.faultInfo t.out := by
  rw [State.result, h]

/-- Settles O46: a `RUN` request is a run, and further steps leave the end of one. -/
theorem hostReadsTheResult : Obligations.HostReadsTheResult :=
  fun _ _ h => ⟨State.result_of_halted, State.result_of_faulted, h.run_eq⟩

/-- Settles O47: serving `INIT` is `State.reinit`, which resets with the parameters of the state it is asked in. -/
theorem initKeepsOnlyTheParameters : Obligations.InitKeepsOnlyTheParameters :=
  fun _ _ => rfl

end Sys2Proof.Machine
end

section
/-! PROOFS. The fault model (60_exceptions): the faults of fetch and decode (R162, R163), the first fault of every
instruction in the order of R170 against its meaning (R164 to R168), the first fault of a step (R169), the rows of R183, and
the two overflows where the stacks are unbounded (R201 item 9). -/

namespace Sys2Proof.Machine

/-! Fetch and decode, branch by branch (R40, R52, R54, R170 items 1 to 3). -/

section Fetch

variable {s : State} {w : Word} {op : Opcode}

theorem fetchInstr_of_no_word (hw : s.prog[s.ip.toNat]? = none) : fetchInstr s = .error ⟨.fetchOob, s.ip⟩ := by
  rw [fetchInstr, fetchWord_eq_error.2 ⟨List.getElem?_eq_none_iff.1 hw, rfl⟩, error_bind]

theorem fetchInstr_of_illegal (hw : s.prog[s.ip.toNat]? = some w) (hop : decodeOpcode s.params.opcodes w = none) :
    fetchInstr s = .error ⟨.illegalOpcode, w⟩ := by
  simp only [fetchInstr, fetchWord_eq_ok.2 hw, ok_bind, hop]

/-- An opcode of format O is the whole instruction (R51). -/
theorem fetchInstr_of_no_immediate (hw : s.prog[s.ip.toNat]? = some w)
    (hop : decodeOpcode s.params.opcodes w = some op) (himm : op.hasImmediate = false) :
    fetchInstr s = .ok (op.instr 0) := by
  simp [fetchInstr, fetchWord_eq_ok.2 hw, hop, himm]

/-- The fault of a fetch is one of the first three of R170's order. -/
theorem cause_of_fetchInstr_error {e : Raise} (h : fetchInstr s = .error e) :
    e.cause = .fetchOob ∨ e.cause = .illegalOpcode := by
  obtain hword | ⟨w, -, hrest⟩ := bind_eq_error.1 h
  · obtain ⟨-, rfl⟩ := fetchWord_eq_error.1 hword
    exact .inl rfl
  · split at hrest
    · cases hrest
      exact .inr rfl
    · split at hrest
      · obtain himm | ⟨imm, -, hok⟩ := bind_eq_error.1 hrest
        · obtain ⟨-, rfl⟩ := fetchWord_eq_error.1 himm
          exact .inl rfl
        · cases hok
      · cases hrest

end Fetch

/-- Settles O16. -/
theorem fetchAndDecodeFaults : Obligations.FetchAndDecodeFaults := by
  refine ⟨fun s hs hlen => step_of_length_le_ip hs hlen, fun s op hinv hs himm hop hlast => ?immediate,
    fun s w hs hw hno => step_eq_takeFault hs (fetchInstr_of_illegal hw (decodeOpcode_eq_none.2 hno))⟩
  case immediate =>
    have hformat : op.hasImmediate = true := by rcases himm with rfl | rfl <;> rfl
    obtain ⟨-, hmissing⟩ := step_of_hasImmediate hinv hs hformat hop 0
    exact hmissing hlast

/-! The first fault of an instruction, by the checks it makes (R164 to R168, R170 items 4 to 6). -/

section FirstRaise

variable {i : Instr} {s : State}

/-- The operand count is checked before all else. -/
theorem firstRaise_of_lt_needs (h : s.osp < needs i) : firstRaise i s = some ⟨.ostackUnderflow, 0⟩ := by
  rw [firstRaise, if_pos h]

/-- An instruction whose row of R183 holds the underflow alone makes no other check. -/
theorem firstRaise_of_row_underflow (row : faultRow i.opcode = [.ostackUnderflow]) (h : needs i ≤ s.osp) :
    firstRaise i s = none := by
  cases i with
  | swap | add | sub | multu | gt | lt | eq | ge | le | printu | jp | jr | jpc | jrc =>
    simp [firstRaise, refusedAccess, memoryAccess, Instr.opcode, Opcode.hasImmediate, Nat.not_lt.2 h]
  | _ => cases row

/-- With its operands on the stack an access of memory raises what the bounds rule says (R33). -/
theorem firstRaise_of_access {addr : Word} {n : Nat} (access : memoryAccess i s.ostack = some (addr, n))
    (h : needs i ≤ s.osp) :
    firstRaise i s = if addr.toNat + n ≤ s.params.memCapacity then none else some ⟨.memOob, addr⟩ := by
  have hrefused : refusedAccess i s = if addr.toNat + n ≤ s.params.memCapacity then none else some addr := by
    rw [refusedAccess, access]
  cases i with
  | read8 | read64 | write8 | write64 | puts =>
    by_cases hin : addr.toNat + n ≤ s.params.memCapacity <;>
      simp [firstRaise, hrefused, hin, Instr.opcode, Opcode.hasImmediate, Nat.not_lt.2 h]
  | _ => simp [memoryAccess] at access

/-- `push`, and `dup` with its operand, raise on a full finite stack alone (R167). -/
theorem firstRaise_of_hasImmediate (himm : i.opcode.hasImmediate = true) (h : needs i ≤ s.osp) :
    firstRaise i s = if s.params.ostackDepth = some s.osp then some ⟨.ostackOverflow, 0⟩ else none := by
  cases i with
  | push | dup => simp [firstRaise, refusedAccess, memoryAccess, Instr.opcode, Opcode.hasImmediate, Nat.not_lt.2 h]
  | _ => cases himm

/-- `call` with its operand raises on a full finite call stack alone (R168). -/
theorem firstRaise_call (h : 1 ≤ s.osp) : firstRaise .call s =
    if s.params.cstackDepth = some s.csp then some ⟨.cstackOverflow, 0⟩ else none := by
  have hneeds : ¬ s.osp < needs .call := Nat.not_lt.2 h
  simp [firstRaise, refusedAccess, memoryAccess, Instr.opcode, Opcode.hasImmediate, hneeds]

/-- `ret` raises on an empty call stack alone (R165). -/
theorem firstRaise_ret : firstRaise .ret s = if s.csp = 0 then some ⟨.cstackUnderflow, 0⟩ else none := by
  simp [firstRaise, refusedAccess, memoryAccess, Instr.opcode, Opcode.hasImmediate, needs]

theorem firstRaise_halt : firstRaise .halt s = none := by
  simp [firstRaise, refusedAccess, memoryAccess, Instr.opcode, Opcode.hasImmediate, needs]

/-- Which check a first fault comes from (R164 to R168). -/
theorem firstRaise_eq_some {e : Raise} (h : firstRaise i s = some e) :
    (e.cause = .ostackUnderflow ∧ s.osp < needs i) ∨ (e.cause = .cstackUnderflow ∧ i = .ret) ∨
      (e.cause = .memOob ∧ refusedAccess i s ≠ none) ∨
      (e.cause = .ostackOverflow ∧ i.opcode.hasImmediate = true ∧ s.params.ostackDepth = some s.osp) ∨
      (e.cause = .cstackOverflow ∧ i = .call ∧ s.params.cstackDepth = some s.csp) := by
  unfold firstRaise at h
  split at h
  case isTrue hneeds => cases h; exact .inl ⟨rfl, hneeds⟩
  split at h
  case isTrue hret => cases h; exact .inr (.inl ⟨rfl, hret.1⟩)
  split at h
  case h_1 haccess => cases h; exact .inr (.inr (.inl ⟨rfl, by simp [haccess]⟩))
  split at h
  case isTrue hpush => cases h; exact .inr (.inr (.inr (.inl ⟨rfl, hpush⟩)))
  split at h
  case isTrue hcall => cases h; exact .inr (.inr (.inr (.inr ⟨rfl, hcall⟩)))
  cases h

/-- The first fault of an instruction is in its row of R183. -/
theorem cause_mem_faultRow_of_firstRaise {e : Raise} (h : firstRaise i s = some e) :
    e.cause ∈ faultRow i.opcode := by
  rcases firstRaise_eq_some h with
    ⟨hc, hneeds⟩ | ⟨hc, rfl⟩ | ⟨hc, haccess⟩ | ⟨hc, himm, -⟩ | ⟨hc, rfl, -⟩
  all_goals rw [hc]
  · cases i with
    | push | ret | halt => simp [needs] at hneeds
    | _ => simp [faultRow, Instr.opcode]
  · simp [faultRow, Instr.opcode]
  · cases i with
    | read8 | read64 | write8 | write64 | puts => simp [faultRow, Instr.opcode]
    | _ => simp [refusedAccess, memoryAccess] at haccess
  · cases i with
    | push | dup => simp [faultRow, Instr.opcode]
    | _ => cases himm
  · simp [faultRow, Instr.opcode]

end FirstRaise

/-! Every instruction takes its first fault (R169, R170). -/

/-- What an instruction owes the order of R170: it takes the first fault, or meets none and completes. -/
inductive TakesFirstRaise (i : Instr) (s : State) : Prop where
  | raises (e : Raise) (first : firstRaise i s = some e) (taken : exec i s = .next (takeFault s e))
  | completes (t : State) (first : firstRaise i s = none) (ends : exec i s = .next t)
    (status : t.status = if i = .halt then .halted else s.status)

section Instructions

variable {i : Instr} {s : State}

theorem State.exists_operand (h : 1 ≤ s.osp) : ∃ a rest, s.ostack = a :: rest :=
  List.exists_cons_of_length_pos h

theorem State.exists_two_operands (h : 2 ≤ s.osp) : ∃ a b rest, s.ostack = a :: b :: rest := by
  obtain ⟨a, tail, htail⟩ := State.exists_operand (Nat.le_of_succ_le h)
  rw [State.osp, htail, List.length_cons] at h
  obtain ⟨b, rest, rfl⟩ := List.exists_cons_of_length_pos (l := tail) (by omega)
  exact ⟨a, b, rest, htail⟩

theorem State.ostack_eq_nil (h : s.osp < 1) : s.ostack = [] :=
  List.length_eq_zero_iff.1 (Nat.lt_one_iff.1 h)

/-- An instruction that underflows on too few operands, and takes its first fault otherwise. -/
theorem TakesFirstRaise.of_needs
    (underflow : s.osp < needs i → exec i s = .next (takeFault s ⟨.ostackUnderflow, 0⟩))
    (otherwise : needs i ≤ s.osp → TakesFirstRaise i s) : TakesFirstRaise i s := by
  obtain hlt | hle := Nat.lt_or_ge s.osp (needs i)
  · exact .raises _ (firstRaise_of_lt_needs hlt) (underflow hlt)
  · exact otherwise hle

/-- An instruction with the underflow as its one fault. -/
theorem TakesFirstRaise.of_row_underflow (row : faultRow i.opcode = [.ostackUnderflow])
    (underflow : s.osp < needs i → exec i s = .next (takeFault s ⟨.ostackUnderflow, 0⟩))
    (completes : needs i ≤ s.osp → ∃ t, exec i s = .next t ∧ t.status = s.status) : TakesFirstRaise i s := by
  have hi : i ≠ .halt := by rintro rfl; cases row
  refine .of_needs underflow fun h => ?_
  obtain ⟨t, hexec, hstatus⟩ := completes h
  exact .completes t (firstRaise_of_row_underflow row h) hexec (by rw [if_neg hi, hstatus])

/-- An instruction with its operands that accesses memory: refused, or admitted and completed (R33, R166). -/
theorem TakesFirstRaise.of_access {addr : Word} {n : Nat} {t : State}
    (access : memoryAccess i s.ostack = some (addr, n)) (h : needs i ≤ s.osp)
    (refused : s.params.memCapacity < addr.toNat + n → exec i s = .next (takeFault s ⟨.memOob, addr⟩))
    (admitted : addr.toNat + n ≤ s.params.memCapacity → exec i s = .next t) (status : t.status = s.status) :
    TakesFirstRaise i s := by
  have hi : i ≠ .halt := by rintro rfl; simp [memoryAccess] at access
  have hfirst := firstRaise_of_access access h
  obtain hout | hin := Nat.lt_or_ge s.params.memCapacity (addr.toNat + n)
  · exact .raises _ (by rw [hfirst, if_neg (Nat.not_le.2 hout)]) (refused hout)
  · exact .completes t (by rw [hfirst, if_pos hin]) (admitted hin) (by rw [if_neg hi, status])

/-- An arithmetic or comparison instruction (R93, R105). -/
theorem takesFirstRaise_binary {f : Word → Word → Word} (form : binaryFn i = some f)
    (row : faultRow i.opcode = [.ostackUnderflow]) (two : needs i = 2) (hfit : s.stacksFit = true) :
    TakesFirstRaise i s := by
  refine .of_row_underflow row (fun h => exec_binary_of_length_lt form (two ▸ h)) fun h => ?_
  obtain ⟨a, b, rest, ops⟩ := State.exists_two_operands (two ▸ h)
  exact ⟨_, exec_binary_of_two form hfit ops, rfl⟩

/-- A load (R110, R111). -/
theorem takesFirstRaise_load {n : Nat} (form : (i, n) ∈ [(Instr.read8, 1), (.read64, 8)]) (one : needs i = 1)
    (access : ∀ addr rest, memoryAccess i (addr :: rest) = some (addr, n)) (hfit : s.stacksFit = true) :
    TakesFirstRaise i s := by
  refine .of_needs (fun h => exec_load_of_nil form (State.ostack_eq_nil (one ▸ h))) fun h => ?_
  obtain ⟨addr, rest, ops⟩ := State.exists_operand (one ▸ h)
  exact .of_access (ops ▸ access addr rest) h (exec_load_of_lt form ops) (exec_load_of_le form hfit ops) rfl

/-- A store (R112, R113). -/
theorem takesFirstRaise_store {n : Nat} (form : (i, n) ∈ [(Instr.write8, 1), (.write64, 8)]) (two : needs i = 2)
    (access : ∀ addr rest, memoryAccess i (addr :: rest) = some (addr, n)) : TakesFirstRaise i s := by
  have form' : (i, n) ∈ loadsAndStores := by simp only [loadsAndStores, List.mem_cons] at form ⊢; tauto
  refine .of_needs (fun h => exec_store_of_length_lt form (two ▸ h)) fun h => ?_
  obtain ⟨addr, value, rest, ops⟩ := State.exists_two_operands (two ▸ h)
  exact .of_access (ops ▸ access addr _) h (exec_eq_memOob_of_access form' ops) (exec_store_of_le form ops) rfl

/-- An unconditional jump (R132, R135). -/
theorem takesFirstRaise_transfer {target : Word → Word → Word} (form : i ∈ [Instr.jp, .jr])
    (fn : targetFn i = some target) (row : faultRow i.opcode = [.ostackUnderflow]) (one : needs i = 1) :
    TakesFirstRaise i s := by
  refine .of_row_underflow row (fun h => exec_transfer_of_nil form fn (State.ostack_eq_nil (one ▸ h))) fun h => ?_
  obtain ⟨v, rest, ops⟩ := State.exists_operand (one ▸ h)
  exact ⟨_, exec_eq_next_of_transfer form fn ops, rfl⟩

/-- A conditional jump (R133, R136). -/
theorem takesFirstRaise_transferIf {target : Word → Word → Word} (form : i ∈ [Instr.jpc, .jrc])
    (fn : targetFn i = some target) (row : faultRow i.opcode = [.ostackUnderflow]) (two : needs i = 2) :
    TakesFirstRaise i s := by
  refine .of_row_underflow row (fun h => exec_transferIf_of_length_lt form fn (two ▸ h)) fun h => ?_
  obtain ⟨v, cond, rest, ops⟩ := State.exists_two_operands (two ▸ h)
  exact ⟨_, exec_eq_next_of_transferIf form fn ops, rfl⟩

/-- An instruction of format OI with its operand: it overflows, or completes (R80, R81, R167). -/
theorem TakesFirstRaise.of_hasImmediate {v : Word} (himm : i.opcode.hasImmediate = true) (h : needs i ≤ s.osp)
    (as_push : exec i s = exec (.push v) s) : TakesFirstRaise i s := by
  have hi : i ≠ .halt := by rintro rfl; cases himm
  have hfirst := firstRaise_of_hasImmediate himm h
  by_cases full : s.params.ostackDepth = some s.osp
  · exact .raises _ (by rw [hfirst, if_pos full]) (as_push.trans (exec_push_of_full full))
  · exact .completes _ (by rw [hfirst, if_neg full]) (as_push.trans (exec_push_of_room full)) (by rw [if_neg hi])

theorem takesFirstRaise_dup {n : Word} : TakesFirstRaise (.dup n) s := by
  refine .of_needs (fun h => exec_dup_of_length_le (Nat.le_of_lt_succ h)) fun h => ?_
  exact .of_hasImmediate rfl h (exec_dup_eq_exec_push (List.getElem?_eq_getElem h))

theorem takesFirstRaise_swap (hfit : s.stacksFit = true) : TakesFirstRaise .swap s := by
  refine .of_row_underflow rfl exec_swap_of_length_lt fun h => ?_
  obtain ⟨a, b, rest, ops⟩ := State.exists_two_operands h
  exact ⟨_, exec_swap_of_two hfit ops, rfl⟩

theorem takesFirstRaise_printu : TakesFirstRaise .printu s := by
  refine .of_row_underflow rfl (fun h => exec_printu_of_nil (State.ostack_eq_nil h)) fun h => ?_
  obtain ⟨a, rest, ops⟩ := State.exists_operand h
  exact ⟨_, exec_printu_of_cons ops, rfl⟩

theorem takesFirstRaise_puts : TakesFirstRaise .puts s := by
  refine .of_needs exec_puts_of_length_lt fun h => ?_
  obtain ⟨size, ptr, rest, ops⟩ := State.exists_two_operands h
  exact .of_access (by rw [ops]; rfl) h (exec_puts_of_lt ops) (exec_puts_of_le ops) rfl

theorem takesFirstRaise_call : TakesFirstRaise .call s := by
  refine .of_needs (fun h => exec_call_of_nil (State.ostack_eq_nil h)) fun h => ?_
  obtain ⟨addr, rest, ops⟩ := State.exists_operand h
  by_cases full : s.params.cstackDepth = some s.csp
  · exact .raises _ (by rw [firstRaise_call h, if_pos full]) (exec_call_of_full ops full)
  · exact .completes _ (by rw [firstRaise_call h, if_neg full]) (exec_call_of_room ops full) rfl

theorem takesFirstRaise_ret : TakesFirstRaise .ret s := by
  cases ret : s.cstack with
  | nil => exact .raises _ (by simp [firstRaise_ret, State.csp, ret]) (exec_ret_of_nil ret)
  | cons v rest => exact .completes _ (by simp [firstRaise_ret, State.csp, ret]) (exec_ret_of_cons ret) rfl

/-- Every instruction takes its first fault, or completes: the forms above, instruction by instruction. -/
theorem takesFirstRaise (i : Instr) (hfit : s.stacksFit = true) : TakesFirstRaise i s := by
  cases i with
  | push v => exact .of_hasImmediate rfl (Nat.zero_le _) rfl
  | dup n => exact takesFirstRaise_dup
  | swap => exact takesFirstRaise_swap hfit
  | add | sub | multu | gt | lt | eq | ge | le => exact takesFirstRaise_binary rfl rfl rfl hfit
  | read8 | read64 => exact takesFirstRaise_load (by simp) rfl (fun _ _ => rfl) hfit
  | write8 | write64 => exact takesFirstRaise_store (by simp) rfl fun _ _ => rfl
  | printu => exact takesFirstRaise_printu
  | puts => exact takesFirstRaise_puts
  | call => exact takesFirstRaise_call
  | ret => exact takesFirstRaise_ret
  | jp | jr => exact takesFirstRaise_transfer (by simp) rfl rfl rfl
  | jpc | jrc => exact takesFirstRaise_transferIf (by simp) rfl rfl rfl
  | halt => exact .completes _ firstRaise_halt (exec_halt s) rfl

end Instructions

/-- Settles O22: the two ends of `TakesFirstRaise`. -/
theorem execTakesTheFirstFault : Obligations.ExecTakesTheFirstFault := by
  intro i s hfit
  cases takesFirstRaise i hfit with
  | raises e first taken =>
    rw [first]
    exact ⟨fun e' he => Option.some.inj he ▸ taken, nofun⟩
  | completes t first ends status =>
    rw [first]
    exact ⟨nofun, fun _ => ⟨t, ends, status⟩⟩

/-! The first fault of a step (R169, R170). -/

section Step

variable {i : Instr} {s t : State} {e : Raise}

/-- A fault of fetch or decode is the step's first fault, and behind them it is the instruction's own. -/
theorem stepRaise_of_fetchInstr (hinv : Inv s) : (∀ e, fetchInstr s = .error e → stepRaise s = some e) ∧
    ∀ i, fetchInstr s = .ok i → stepRaise s = firstRaise i s := by
  cases hw : s.prog[s.ip.toNat]? with
  | none => simp [fetchInstr_of_no_word hw, stepRaise, hw]
  | some w =>
    cases hop : decodeOpcode s.params.opcodes w with
    | none =>
      have hfind : Opcode.all.find? (fun op => s.params.opcodes.value op == w) = none := hop
      simp [fetchInstr_of_illegal hw hop, stepRaise, hw, hfind]
    | some op =>
      have hfind : Opcode.all.find? (fun op => s.params.opcodes.value op == w) = some op := hop
      cases himm : op.hasImmediate with
      | false => simp [fetchInstr_of_no_immediate hw hop himm, stepRaise, hw, hfind, himm]
      | true =>
        have hvalue : s.prog[s.ip.toNat]? = some (s.params.opcodes.value op) :=
          hw.trans (congrArg some (value_of_decodeOpcode hop).symm)
        rw [fetchInstr_of_hasImmediate hinv himm hvalue, fetchWord, toNat_ip_add_one hinv hw]
        cases himmw : s.prog[s.ip.toNat + 1]? <;> simp [stepRaise, hw, hfind, himm, himmw]

/-- A step takes its first fault. -/
theorem step_of_stepRaise_some (hinv : Inv s) (hs : s.status = .running) (h : stepRaise s = some e) :
    step s = .next (takeFault s e) := by
  obtain ⟨herror, hok⟩ := stepRaise_of_fetchInstr hinv
  cases hfetch : fetchInstr s with
  | error e' =>
    obtain rfl := Option.some.inj ((herror e' hfetch).symm.trans h)
    exact step_eq_takeFault hs hfetch
  | ok i =>
    obtain ⟨hraise, -⟩ := execTakesTheFirstFault i s hinv.stacksFit
    rw [step_eq_exec hs hfetch, hraise e ((hok i hfetch).symm.trans h)]

/-- A step that meets no fault has the effect of the instruction it fetched, and does not fault. -/
theorem step_of_stepRaise_none (hinv : Inv s) (hs : s.status = .running) (h : stepRaise s = none) :
    ∃ i t, step s = .next t ∧ Effect s i t ∧ t.status ≠ .faulted := by
  obtain ⟨herror, hok⟩ := stepRaise_of_fetchInstr hinv
  cases hfetch : fetchInstr s with
  | error e => exact absurd ((herror e hfetch).symm.trans h) (Option.some_ne_none e)
  | ok i =>
    obtain ⟨-, hcompletes⟩ := execTakesTheFirstFault i s hinv.stacksFit
    obtain ⟨t, hexec, hstatus⟩ := hcompletes ((hok i hfetch).symm.trans h)
    have hne : t.status ≠ .faulted := by rw [hstatus, hs]; split <;> simp
    obtain ⟨e, rfl⟩ | heff := exec_cases hexec
    · exact absurd (takeFault_status s e) hne
    · exact ⟨i, t, (step_eq_exec hs hfetch).trans hexec, heff, hne⟩

/-- A step that faults takes a fault of its fetch, or the first fault of the instruction it fetched. -/
theorem raise_of_step_faulted (hfit : s.stacksFit = true) (hs : s.status = .running) (h : step s = .next t)
    (ht : t.status = .faulted) : ∃ e, t = takeFault s e ∧
      (fetchInstr s = .error e ∨ ∃ i, fetchInstr s = .ok i ∧ firstRaise i s = some e) := by
  cases hfetch : fetchInstr s with
  | error e => exact ⟨e, Host.Outcome.next.inj (h.symm.trans (step_eq_takeFault hs hfetch)), .inl rfl⟩
  | ok i =>
    have hexec := (step_eq_exec hs hfetch).symm.trans h
    cases takesFirstRaise i hfit with
    | raises e first taken => exact ⟨e, Host.Outcome.next.inj (hexec.symm.trans taken), .inr ⟨i, rfl, first⟩⟩
    | completes u _ ends status =>
      obtain rfl := Host.Outcome.next.inj (ends.symm.trans hexec)
      rw [status, hs] at ht
      split at ht <;> cases ht

end Step

/-- Settles O21: the two ends of a step, and the codes of R161. -/
theorem stepTakesTheFirstFault : Obligations.StepTakesTheFirstFault := by
  refine ⟨fun s hinv hs => ⟨fun e he => ?raises, fun hnone => ?completes⟩, rfl⟩
  case raises =>
    exact ⟨takeFault s e, rfl, step_of_stepRaise_some hinv hs he, run_of_not_running (by simp)⟩
  case completes =>
    obtain ⟨i, t, hstep, heff, hne⟩ := step_of_stepRaise_none hinv hs hnone
    exact ⟨t, hstep, hne, heff.cause_eq, heff.faultPc_eq, heff.faultInfo_eq⟩

/-! The rows of R183. -/

/-- Behind a fetched and decoded opcode word the fetch raises at a missing immediate alone, and answers an instruction
of that opcode (R52, R162). -/
theorem fetchInstr_of_value {s : State} {op : Opcode} (hinv : Inv s)
    (hop : s.prog[s.ip.toNat]? = some (s.params.opcodes.value op)) :
    (∀ e, fetchInstr s = .error e → e.cause = .fetchOob ∧ op.hasImmediate = true) ∧
      ∀ i, fetchInstr s = .ok i → i.opcode = op := by
  cases himm : op.hasImmediate with
  | false =>
    have hdec := (decodeOpcode_eq_some (op := op) hinv.opcodes).2 rfl
    rw [fetchInstr_of_no_immediate hop hdec himm]
    exact ⟨nofun, fun i hi => by cases hi; exact Instr.opcode_instr 0 op⟩
  | true =>
    rw [fetchInstr_of_hasImmediate hinv himm hop]
    cases himmw : fetchWord s (s.ip + 1) with
    | error e =>
      obtain ⟨-, rfl⟩ := fetchWord_eq_error.1 himmw
      exact ⟨fun e he => by cases he; exact ⟨rfl, rfl⟩, nofun⟩
    | ok imm => exact ⟨nofun, fun i hi => by cases hi; exact Instr.opcode_instr imm op⟩

/-- The rows of the opcodes of format OI begin with the fetch of the immediate (R183). -/
theorem fetchOob_mem_faultRow {op : Opcode} (himm : op.hasImmediate = true) : .fetchOob ∈ faultRow op := by
  cases op with
  | push | dup => exact List.mem_cons_self
  | _ => cases himm

/-- Settles O23: the fault is that of the missing immediate or the first fault of the instruction, both in the row. -/
theorem faultsStayInTheirRow : Obligations.FaultsStayInTheirRow := by
  intro s t op hinv hs hop hstep ht
  obtain ⟨hmissing, hopcode⟩ := fetchInstr_of_value hinv hop
  obtain ⟨e, rfl, hfetch | ⟨i, hfetch, hfirst⟩⟩ := raise_of_step_faulted hinv.stacksFit hs hstep ht
  · obtain ⟨hcause, himm⟩ := hmissing e hfetch
    exact ⟨e.cause, hcause ▸ fetchOob_mem_faultRow himm, rfl⟩
  · exact ⟨e.cause, hopcode i hfetch ▸ cause_mem_faultRow_of_firstRaise hfirst, rfl⟩

/-! The overflows (R167, R168, R201 item 9). -/

theorem Cause.code_eq_ostackOverflow {c : Cause} : c.code = Cause.ostackOverflow.code ↔ c = .ostackOverflow := by
  cases c <;> decide

theorem Cause.code_eq_cstackOverflow {c : Cause} : c.code = Cause.cstackOverflow.code ↔ c = .cstackOverflow := by
  cases c <;> decide

/-- Stacks without a depth always fit (R5). -/
theorem State.stacksFit_of_unbounded {s : State} (ho : s.params.ostackDepth = none) (hc : s.params.cstackDepth = none) :
    s.stacksFit = true := by
  rw [State.stacksFit, ho, hc]
  rfl

/-- An instruction overflows a stack of finite depth only (R167, R168). -/
theorem no_overflow_of_firstRaise {i : Instr} {s : State} {e : Raise} (ho : s.params.ostackDepth = none)
    (hc : s.params.cstackDepth = none) (h : firstRaise i s = some e) :
    e.cause ≠ .ostackOverflow ∧ e.cause ≠ .cstackOverflow := by
  rcases firstRaise_eq_some h with ⟨h, -⟩ | ⟨h, -⟩ | ⟨h, -⟩ | ⟨-, -, hdepth⟩ | ⟨-, -, hdepth⟩
  · simp [h]
  · simp [h]
  · simp [h]
  · simp [ho] at hdepth
  · simp [hc] at hdepth

/-- Settles O40: an overflow is raised by a full finite stack, and by no fetch. -/
theorem noOverflowWithUnboundedStacks : Obligations.NoOverflowWithUnboundedStacks := by
  intro s t ho hc hs hstep ht
  obtain ⟨e, rfl, hraise⟩ := raise_of_step_faulted (State.stacksFit_of_unbounded ho hc) hs hstep ht
  rw [takeFault_cause, Ne, Cause.code_eq_ostackOverflow, Ne, Cause.code_eq_cstackOverflow]
  obtain hfetch | ⟨i, -, hfirst⟩ := hraise
  · obtain h | h := cause_of_fetchInstr_error hfetch
    · simp [h]
    · simp [h]
  · exact no_overflow_of_firstRaise ho hc hfirst

end Sys2Proof.Machine
end
